-- ==== Sys2Proof/Word.lean ====
section
/-! DEFINITION. The bit-vector types of the machine (spec 00_scope.md R3 to R6). -/

namespace Sys2Proof

/-- One addressable unit of memory, 8 bits (R20). -/
abbrev Byte := BitVec 8

/-- A 32-bit word: an instruction word (R40) or the word a load reads (R22). -/
abbrev Word := BitVec 32

/-- A 64-bit value: a general register or an effective address (R10, R55). -/
abbrev Dword := BitVec 64

/-- A 32-bit byte address, also the type of the pc (R20, R12). -/
abbrev Addr := BitVec 32

/-- A 5-bit register field, naming r0 to r31 (R6, R44). -/
abbrev RegNum := BitVec 5

/-- A 16-bit displacement field `d`, two's complement (R43). -/
abbrev Disp := BitVec 16

end Sys2Proof
end

