-- ==== Sys2Proof/Config.lean ====
section
/-! DEFINITION. What is fixed for this machine, and the values the model names where the spec gives none
(spec 00_scope.md R3, 92_eei_decisions.md). -/

namespace Sys2Proof.Config

/-- The highest address a 4-byte access may start at: `A > 0xFFFF_FFFC` runs past the top (R24). -/
def topWord : Addr := 0xFFFFFFFC#32

/-- The optional switch `WRITEBACK32` (92_eei_decisions.md D4): `true` would be the emulator's reading of
90_conflicts.md C1. The spec's default, and its decision, is `false`: an update form writes back all 64 bits.
DESIGN CHOICE (the spec's own, D4; log 6): unsafe where `EA[63:32] ≠ 0` if the pseudocode is not the chip. -/
def writeback32 : Bool := false

/-- The value of every general register in `State.reset`. DESIGN CHOICE (log 1), unsafe: the spec gives no
reset value (R18). -/
def resetGpr : Dword := 0#64

/-- The value of the pc in `State.reset`. DESIGN CHOICE (log 2), unsafe: the spec gives no reset vector (R18). -/
def resetPc : Addr := 0#32

end Sys2Proof.Config
end

