-- ==== Sys2Proof/Syntax.lean ====
section
/-! DEFINITION. The four instructions of spec/opcode_table.json and the field names they share
(spec 00_scope.md R2, 30_encoding.md R41, R42, 40_load_word_and_zero.md R56 to R59). -/

namespace Sys2Proof

/-- The instructions in scope (R2). `rt`, `ra`, `rb` are the 5-bit field values, `d` the 16-bit field (R6, R43). -/
inductive Instr where
  /-- `lwz RD, d(RA0)`: Load Word and Zero (R56). -/
  | lwz (rt ra : RegNum) (d : Disp)
  /-- `lwzu RD, d(RA)`: Load Word and Zero with Update (R57). -/
  | lwzu (rt ra : RegNum) (d : Disp)
  /-- `lwzx RD, RA0, RB`: Load Word and Zero Indexed (R58). -/
  | lwzx (rt ra rb : RegNum)
  /-- `lwzux RD, RA, RB`: Load Word and Zero with Update Indexed (R59). -/
  | lwzux (rt ra rb : RegNum)
deriving DecidableEq, Repr

/-- The destination field RT, which the syntax calls RD (R9, 90_conflicts.md C3). -/
def Instr.rt : Instr → RegNum
  | .lwz rt _ _ => rt
  | .lwzu rt _ _ => rt
  | .lwzx rt _ _ => rt
  | .lwzux rt _ _ => rt

/-- The base field RA (R41, R42). -/
def Instr.ra : Instr → RegNum
  | .lwz _ ra _ => ra
  | .lwzu _ ra _ => ra
  | .lwzx _ ra _ => ra
  | .lwzux _ ra _ => ra

/-- Whether the instruction is an update form, which also writes EA into RA (R9, R63). -/
def Instr.isUpdate : Instr → Bool
  | .lwz _ _ _ => false
  | .lwzu _ _ _ => true
  | .lwzx _ _ _ => false
  | .lwzux _ _ _ => true

end Sys2Proof
end

