-- ==== Sys2Proof/WellFormed.lean ====
section
/-! DEFINITION. The invalid forms of the update instructions (spec 30_encoding.md R47). Every field value of a
non-update form is well-formed, and the field widths hold by type. -/

namespace Sys2Proof

/-- An update form needs `RA ≠ 0` and `RA ≠ RT` (R47). -/
def updateFormOk (rt ra : RegNum) : Bool :=
  decide (ra ≠ 0#5) && decide (ra ≠ rt)

/-- The well-formed instructions: all but the invalid forms of R47. -/
def Instr.wellFormed : Instr → Bool
  | .lwz _ _ _ => true
  | .lwzu rt ra _ => updateFormOk rt ra
  | .lwzx _ _ _ => true
  | .lwzux rt ra _ => updateFormOk rt ra

end Sys2Proof
end

