-- ==== Sys2Proof/Decode.lean ====
section
/-! DEFINITION. From instruction words to instructions and back (spec 30_encoding.md R40 to R48). The decoder is
total: a word that matches no row is rejected by name. The encoder follows the field placement of R41 and R42.
The byte order of an instruction in memory is big-endian (20_memory.md R33, decision D8; log 10). -/

namespace Sys2Proof

/-- Why the decoder gives no instruction. -/
inductive DecodeReject where
  /-- The word matches none of the four rows (R48). Raised by `decode`; safe: the chip may execute the word. -/
  | notInSpec
  /-- Fewer than the four bytes of an instruction word (R40). Raised by `decodeBytes` only; safe. -/
  | tooShort
deriving DecidableEq, Repr

/-- The `n` bits of a word that begin at IBM bit `a`, counted from the most significant end (R4). -/
def ibmField (a n : Nat) (w : Word) : BitVec n :=
  w.extractLsb' (32 - a - n) n

/-- RT, IBM bits 6 to 10 (R41, R42). -/
def fieldRT (w : Word) : RegNum := ibmField 6 5 w

/-- RA, IBM bits 11 to 15 (R41, R42). -/
def fieldRA (w : Word) : RegNum := ibmField 11 5 w

/-- RB, IBM bits 16 to 20 of form X (R42). -/
def fieldRB (w : Word) : RegNum := ibmField 16 5 w

/-- D, IBM bits 16 to 31 of form D (R41). -/
def fieldD (w : Word) : Disp := ibmField 16 16 w

/-- One row of the opcode map: a word belongs to it when `word AND mask = pattern` (R46). -/
structure OpcodeRow where
  mask : Word
  pattern : Word
deriving DecidableEq, Repr

/-- `insn AND mask = match` (R46). -/
def OpcodeRow.accepts (r : OpcodeRow) (w : Word) : Bool :=
  decide (w &&& r.mask = r.pattern)

/-- The row of `lwz` (R46). -/
def rowLwz : OpcodeRow := ⟨0xFC000000#32, 0x80000000#32⟩
/-- The row of `lwzu` (R46). -/
def rowLwzu : OpcodeRow := ⟨0xFC000000#32, 0x84000000#32⟩
/-- The row of `lwzx`: the mask holds IBM bit 31 (Rc) and the pattern has it 0 (R46; decision D2, log 13). -/
def rowLwzx : OpcodeRow := ⟨0xFC0007FF#32, 0x7C00002E#32⟩
/-- The row of `lwzux`: the mask holds IBM bit 31 (Rc) and the pattern has it 0 (R46; decision D2, log 13). -/
def rowLwzux : OpcodeRow := ⟨0xFC0007FF#32, 0x7C00006E#32⟩

/-- The opcode map (R46). -/
def opcodeRows : List OpcodeRow := [rowLwz, rowLwzu, rowLwzx, rowLwzux]

/-- The decoder over one instruction word (R46); every other word is outside the spec (R48). An invalid form of
R47 decodes to its instruction, and its meaning refuses it, in the order of 60_exceptions.md R68. -/
def decode (w : Word) : Except DecodeReject Instr :=
  if rowLwz.accepts w then .ok (.lwz (fieldRT w) (fieldRA w) (fieldD w))
  else if rowLwzu.accepts w then .ok (.lwzu (fieldRT w) (fieldRA w) (fieldD w))
  else if rowLwzx.accepts w then .ok (.lwzx (fieldRT w) (fieldRA w) (fieldRB w))
  else if rowLwzux.accepts w then .ok (.lwzux (fieldRT w) (fieldRA w) (fieldRB w))
  else .error .notInSpec

/-- Four bytes as one word, the first the most significant (20_memory.md R22; the byte formula is PRESUMED, log 15). -/
def wordOfBytes (b0 b1 b2 b3 : Byte) : Word :=
  b0 ++ b1 ++ b2 ++ b3

/-- The byte at offset `k` (0 to 3) of a word in memory, offset 0 the most significant (R22). -/
def byteOfWord (w : Word) (k : Nat) : Byte :=
  w.extractLsb' (24 - 8 * k) 8

/-- The four bytes of a word in memory order (R22, R33). -/
def bytesOfWord (w : Word) : List Byte :=
  [byteOfWord w 0, byteOfWord w 1, byteOfWord w 2, byteOfWord w 3]

/-- The decoder over bytes in memory order: four bytes make a word (R33, R40), and the rest is handed back. -/
def decodeBytes : List Byte → Except DecodeReject (Instr × List Byte)
  | b0 :: b1 :: b2 :: b3 :: rest =>
    match decode (wordOfBytes b0 b1 b2 b3) with
    | .ok i => .ok (i, rest)
    | .error e => .error e
  | _ => .error .tooShort

/-- A form D word: OPCD, RT, RA, D (R41). -/
def encodeD (opcd : BitVec 6) (rt ra : RegNum) (d : Disp) : Word :=
  opcd ++ rt ++ ra ++ d

/-- A form X word: OPCD, RT, RA, RB, XO, Rc (R42). -/
def encodeX (opcd : BitVec 6) (rt ra rb : RegNum) (xo : BitVec 10) (rc : BitVec 1) : Word :=
  opcd ++ rt ++ ra ++ rb ++ xo ++ rc

/-- The encoder: primary and extended opcodes of R45 in the layouts of R41 and R42, Rc = 0 (R46). -/
def encode : Instr → Word
  | .lwz rt ra d => encodeD 32#6 rt ra d
  | .lwzu rt ra d => encodeD 33#6 rt ra d
  | .lwzx rt ra rb => encodeX 31#6 rt ra rb 23#10 0#1
  | .lwzux rt ra rb => encodeX 31#6 rt ra rb 55#10 0#1

/-- The bytes of an instruction in memory order (R33, R40). -/
def encodeBytes (i : Instr) : List Byte := bytesOfWord (encode i)

/-- The instruction word that a word of the opcode table stands for: its low `nbits` bits, the bits above them 0,
in the 32 bits of an instruction (R40; log 22). -/
def tableWord (nbits w : Nat) : Word :=
  BitVec.ofNat 32 (w % 2 ^ nbits)

/-- What the decoder reads from a word numbered as spec/opcode_table.json numbers it, laid out as the hardware
stores it (R33). -/
def decodeTableWord (nbits w : Nat) : Option Instr :=
  match decodeBytes (bytesOfWord (tableWord nbits w)) with
  | .ok (i, _) => some i
  | .error _ => none

end Sys2Proof
end

