-- ==== Sys2Proof/Machine/State.lean ====
section
/-! DEFINITION. The state of the machine (spec 10_state.md R10, R12, R15, R17), why a step stops
(60_exceptions.md R65 to R67), and the state after reset (10_state.md R18). -/

namespace Sys2Proof.Machine

/-- The memory `MEM`: a partial map from 32-bit byte addresses to bytes (R15). `cells` lists the addresses that
exist, strictly rising, each below 2^32 (`Memory.wf`); an unlisted address holds no byte (R25). -/
structure Memory where
  cells : List Host.Cell
deriving DecidableEq, Repr

/-- The complete state of the model (R17): no flag, control register, mode, reservation or cache is state
(R13, R14, R16, R72). -/
structure State where
  /-- The general registers `x[0..31]`, 64 bits each (R10). -/
  gprs : Vector Dword 32
  /-- The address of the instruction being executed, 32 bits (R12; decision D9, log 11). -/
  pc : Addr
  /-- The one memory, of data and of instructions (R15). -/
  mem : Memory
deriving DecidableEq, Repr

/-- The faults of the machine (R66). A fault is terminal: no handler is entered and nothing is saved (R65, R70). -/
inductive Fault where
  /-- A byte that the access needs, at address `b`, is not in the memory; `b` is the lowest such address of the
  access (R25, R66). Raised by an instruction fetch and by the data read of every load. Safe: the run stops
  (decision D6, log 9). -/
  | memFault (b : Addr)
deriving DecidableEq, Repr

/-- The refusals of the machine: the spec gives the step no meaning (R67). -/
inductive Refusal where
  /-- The instruction has no meaning in this model. Raised by no arm: all four instructions are modelled. Safe. -/
  | notModelled (mnemonic : String)
  /-- The fetched word matches no row of the opcode table (R48). Raised by the step after the fetch. Safe: the
  chip may execute the word (decision D1, logs 12 and 13). -/
  | notInSpec
  /-- `lwzu` or `lwzux` with RA = 0 or RA = RT, undefined as an instruction (R47). Raised by their meanings. Safe
  (decision D3, log 14). -/
  | invalidForm
  /-- A data read that begins above 0xFFFF_FFFC (R24). Raised by the data read of every load. Safe (decision D7,
  log 8). -/
  | addressWrap
  /-- The pc is no multiple of 4 at fetch (R12, R33). Raised by the fetch. Safe (decision D8, log 10). -/
  | misalignedPc
  /-- A fetch at 0xFFFF_FFFC, whose successor does not fit in 32 bits (R12). Raised by the fetch. Safe (decision
  D9, log 11). -/
  | pcWrap
deriving DecidableEq, Repr

/-- Why a step gives no next state: the one fault or a refusal (R65). -/
inductive Stop where
  /-- The step ends in a fault: `raise` of R8. -/
  | fault (f : Fault)
  /-- The step ends in a refusal: `refuse` of R8. -/
  | refused (r : Refusal)
deriving DecidableEq, Repr

/-- The machine right after reset. The spec gives no reset value for anything (R18): the registers and the pc
take the values that Config names (DESIGN CHOICE, logs 1 and 2), and the memory lists nothing (log 3). -/
def State.reset : State where
  gprs := Vector.replicate 32 Config.resetGpr
  pc := Config.resetPc
  mem := ⟨[]⟩

end Sys2Proof.Machine
end

