-- ==== Sys2Proof/Machine/Ops.lean ====
section
/-! DEFINITION. The named operations over registers, pc and memory (spec 10_state.md R10, R12, 20_memory.md R20 to
R25). There is no operation that takes an exception and none that returns from one: the spec has neither, and
forbids a model to invent them (60_exceptions.md R70, R71). -/

namespace Sys2Proof.Machine

/-! ### How a computation ends -/

/-- The outcome of a step whose computation gave a state or a stop (R8, R65). -/
def settle : Except Stop State → Host.Outcome State Fault Refusal
  | .ok s => .next s
  | .error (.fault f) => .fault f
  | .error (.refused r) => .refused r

/-- `refuse <Reason>` (R8). -/
def refuse {α : Type} (r : Refusal) : Except Stop α := .error (.refused r)

/-- `raise MemFault(b)` (R8, R66). -/
def raiseMemFault {α : Type} (b : Addr) : Except Stop α := .error (.fault (.memFault b))

/-! ### Registers and pc -/

/-- `x[i]` (R6, R10). No register is hard-wired: r0 reads as what it holds. -/
def State.gpr (s : State) (i : RegNum) : Dword :=
  s.gprs[i.toNat]'i.isLt

/-- `x[i] <- v` (R6, R10). -/
def State.setGpr (s : State) (i : RegNum) (v : Dword) : State :=
  { s with gprs := s.gprs.set i.toNat v i.isLt }

/-- `pc <- pc + 4`, on 32 bits (R5, R12, R62). A step never takes it at 0xFFFF_FFFC: it is refused before the
fetch (R12; log 20). -/
def State.advance (s : State) : State :=
  { s with pc := s.pc + 4#32 }

/-! ### Memory -/

/-- What an unlisted address reads as: no byte, so that the access faults (R25; log 3). -/
def Memory.unlisted (_a : Nat) : Option Byte := none

/-- The byte a list of cells holds at an address. -/
def Memory.lookup : List Host.Cell → Nat → Option Byte
  | [], a => Memory.unlisted a
  | (k, b) :: rest, a => if k = a then some b else Memory.lookup rest a

/-- `MEM[a]`, where the address exists (R15, R25). -/
def Memory.readByte (m : Memory) (a : Nat) : Option Byte :=
  Memory.lookup m.cells a

/-- Cells at strictly rising addresses, the first at `lo` or above, all below 2^32 (R20). -/
def Memory.risingFrom (lo : Nat) : List Host.Cell → Bool
  | [] => true
  | (k, _) :: rest => decide (lo ≤ k) && decide (k < 2 ^ 32) && Memory.risingFrom (k + 1) rest

/-- The canonical form of a memory: addresses strictly rising and below 2^32. An unlisted address holds no byte,
so no entry can equal what it reads as. -/
def Memory.wf (m : Memory) : Bool :=
  Memory.risingFrom 0 m.cells

/-- Puts a byte at an address in a rising list of cells. -/
def Memory.insert (a : Nat) (b : Byte) : List Host.Cell → List Host.Cell
  | [] => [(a, b)]
  | (k, c) :: rest =>
    if a < k then (a, b) :: (k, c) :: rest
    else if a = k then (a, b) :: rest
    else (k, c) :: Memory.insert a b rest

/-- The memory with a byte placed at an address. No instruction in scope writes memory (R15, R26): only the
launcher places bytes (R75; log 4). -/
def Memory.placeByte (m : Memory) (a : Addr) (b : Byte) : Memory :=
  ⟨Memory.insert a.toNat b m.cells⟩

/-- The memory with the four bytes of a word placed from an address on, most significant first (R22, R33). -/
def Memory.placeWord (m : Memory) (a : Addr) (w : Word) : Memory :=
  (((m.placeByte a (byteOfWord w 0)).placeByte (a + 1#32) (byteOfWord w 1)).placeByte
    (a + 2#32) (byteOfWord w 2)).placeByte (a + 3#32) (byteOfWord w 3)

/-- The byte at an address, or the fault of an absent one (R25). -/
def Memory.needByte (m : Memory) (a : Addr) : Except Stop Byte :=
  match m.readByte a.toNat with
  | some b => .ok b
  | none => raiseMemFault a

/-- `MemRead(a, 4)` (R22): four bytes, big-endian, at any alignment (R23). Above 0xFFFF_FFFC the access is refused
(R24; log 8); where a byte is absent it faults at the lowest absent address (R25; log 9). A read changes nothing
(R28). -/
def Memory.readWord (m : Memory) (a : Addr) : Except Stop Word :=
  if Config.topWord < a then refuse .addressWrap
  else do
    let b0 ← m.needByte a
    let b1 ← m.needByte (a + 1#32)
    let b2 ← m.needByte (a + 2#32)
    let b3 ← m.needByte (a + 3#32)
    pure (wordOfBytes b0 b1 b2 b3)

end Sys2Proof.Machine
end

