-- ==== Sys2Proof/Machine/Operands.lean ====
section
/-! DEFINITION. The operand forms and the effective address (spec 10_state.md R11, 30_encoding.md R43, R44,
40_load_word_and_zero.md R55, R61, R63). -/

namespace Sys2Proof.Machine

/-- The RA0 base: the literal 64-bit zero for register number 0, else `x[RA]` (R11, the source's `(RA|0)`). -/
def State.baseRA0 (s : State) (ra : RegNum) : Dword :=
  if ra = 0#5 then 0#64 else s.gpr ra

/-- The plain RA base of an update form: `x[RA]`, with no zero rule (R44, R57, R59). -/
def State.baseRA (s : State) (ra : RegNum) : Dword :=
  s.gpr ra

/-- The index operand: `x[RB]`, all 64 bits, for every RB, 0 included (R44, R58). -/
def State.index (s : State) (rb : RegNum) : Dword :=
  s.gpr rb

/-- The displacement operand: `sext_64(d)`, the source's `EXTS(d)`, neither scaled nor shifted (R43). -/
def extS (d : Disp) : Dword :=
  d.signExtend 64

/-- `EA <- base + offset`, modulo 2^64, no carry kept (R55, R61). -/
def effectiveAddress (base offset : Dword) : Dword :=
  base + offset

/-- `A <- EA[31:0]`: the memory address; the high half takes no part (R21; decision D5, log 7). -/
def memAddress (ea : Dword) : Addr :=
  ea.extractLsb' 0 32

/-- `zext_64(w)`: the loaded word with zeros above it, `0x0000_0000 || w` (R5, R55). -/
def zeroExtend64 (w : Word) : Dword :=
  0#32 ++ w

/-- The value an update form writes to RA for the effective address `ea`: all of it, or, with the switch
`WRITEBACK32` on, its low half zero-extended (R57; 90_conflicts.md C1, decision D4, log 6). -/
def updateValue (writeback32 : Bool) (ea : Dword) : Dword :=
  if writeback32 then zeroExtend64 (memAddress ea) else ea

/-- The effective address an instruction computes in a state: register plus displacement or register plus
register, on the RA0 base or on plain RA (R63). -/
def effectiveAddressOf (i : Instr) (s : State) : Dword :=
  match i with
  | .lwz _ ra d => effectiveAddress (s.baseRA0 ra) (extS d)
  | .lwzu _ ra d => effectiveAddress (s.baseRA ra) (extS d)
  | .lwzx _ ra rb => effectiveAddress (s.baseRA0 ra) (s.index rb)
  | .lwzux _ ra rb => effectiveAddress (s.baseRA ra) (s.index rb)

end Sys2Proof.Machine
end

