-- ==== Sys2Proof/Machine/Flags.lean ====
section
/-! DEFINITION. Flags and the other per-instruction attributes of the encoding section. No instruction in scope
reads or writes a flag, condition code or status bit (spec 10_state.md R13, 40_load_word_and_zero.md R60), so no flag
is state and there is no flag computation; what the spec does give is which variants and attributes each
instruction has. -/

namespace Sys2Proof.Machine

/-- The suffix forms that the "Flags" column of the mnemonic table could list (00_scope.md R2, N26). -/
inductive SuffixForm where
  | record
  | overflowEnable
deriving DecidableEq, Repr

/-- "Flags" is "—" for each of the four: none has a record form, an overflow-enable form or another variant (R2). -/
def suffixForms : Instr → List SuffixForm
  | .lwz _ _ _ => []
  | .lwzu _ _ _ => []
  | .lwzx _ _ _ => []
  | .lwzux _ _ _ => []

/-- "Synchronising: no" for each of the four: it waits for no other instruction or access (R32, R79). -/
def synchronising : Instr → Bool
  | .lwz _ _ _ => false
  | .lwzu _ _ _ => false
  | .lwzx _ _ _ => false
  | .lwzux _ _ _ => false

end Sys2Proof.Machine
end

