-- ==== Sys2Proof/Machine/LoadWordZero.lean ====
section
/-! DEFINITION. The meanings of the Load Word and Zero family (spec 40_load_word_and_zero.md R55 to R59). Both
sources are read before any register is written, and a stop writes nothing (60_exceptions.md R68; log 17). -/

namespace Sys2Proof.Machine

/-- The common load of R55: the word at `EA[31:0]`, zero-extended, into `x[RT]`. -/
def commonLoad (rt : RegNum) (ea : Dword) (s : State) : Except Stop State := do
  let w ← s.mem.readWord (memAddress ea)
  pure (s.setGpr rt (zeroExtend64 w))

/-- The first line of R57 and R59: `if RA = 0 or RA = RT then refuse InvalidForm` (R47; log 14). -/
def checkUpdateForm (rt ra : RegNum) : Except Stop Unit :=
  if updateFormOk rt ra then pure () else refuse .invalidForm

/-- A non-update load: the common load, then `pc <- pc + 4` (R56, R58). -/
def plainLoad (rt : RegNum) (ea : Dword) (s : State) : Except Stop State := do
  let s' ← commonLoad rt ea s
  pure s'.advance

/-- An update load: the form check, the common load, `x[RA] <- EA`, then `pc <- pc + 4` (R57, R59). -/
def updateLoad (rt ra : RegNum) (ea : Dword) (s : State) : Except Stop State := do
  checkUpdateForm rt ra
  let s' ← commonLoad rt ea s
  pure (s'.setGpr ra (updateValue Config.writeback32 ea)).advance

/-- `lwz` (R56). -/
def execLwz (rt ra : RegNum) (d : Disp) (s : State) : Host.Outcome State Fault Refusal :=
  settle (plainLoad rt (effectiveAddress (s.baseRA0 ra) (extS d)) s)

/-- `lwzu` (R57). -/
def execLwzu (rt ra : RegNum) (d : Disp) (s : State) : Host.Outcome State Fault Refusal :=
  settle (updateLoad rt ra (effectiveAddress (s.baseRA ra) (extS d)) s)

/-- `lwzx` (R58). -/
def execLwzx (rt ra rb : RegNum) (s : State) : Host.Outcome State Fault Refusal :=
  settle (plainLoad rt (effectiveAddress (s.baseRA0 ra) (s.index rb)) s)

/-- `lwzux` (R59). -/
def execLwzux (rt ra rb : RegNum) (s : State) : Host.Outcome State Fault Refusal :=
  settle (updateLoad rt ra (effectiveAddress (s.baseRA ra) (s.index rb)) s)

end Sys2Proof.Machine
end

