-- ==== Sys2Proof/Machine/Fetch.lean ====
section
/-! DEFINITION. Instruction fetch and the placing of an instruction word where the next fetch reads it (spec
10_state.md R12, 20_memory.md R33, 60_exceptions.md R68 tests 2 to 5). -/

namespace Sys2Proof.Machine

/-- The pc tests of a fetch, in the order of R68: a multiple of 4, and not 0xFFFF_FFFC (R12; decisions D8, D9,
logs 10 and 11). -/
def checkPc (pc : Addr) : Except Stop Unit :=
  if pc.toNat % 4 ≠ 0 then refuse .misalignedPc
  else if pc = Config.topWord then refuse .pcWrap
  else pure ()

/-- `insn <- MemRead(pc, 4)` after the pc tests, from the same memory and in the same byte order as data (R33). -/
def fetchWord (s : State) : Except Stop Word := do
  checkPc s.pc
  s.mem.readWord s.pc

/-- The instruction at the pc: fetched, then decoded; a word outside the four rows is refused (R48, R68). -/
def fetchInstr (s : State) : Except Stop Instr := do
  let w ← fetchWord s
  match decode w with
  | .ok i => pure i
  | .error _ => refuse .notInSpec

/-- The state with an instruction word placed at its pc, where the next step fetches it (R33, R75; log 22). -/
def State.placeInstr (s : State) (w : Word) : State :=
  { s with mem := s.mem.placeWord s.pc w }

end Sys2Proof.Machine
end

