-- ==== Sys2Proof/Machine/Step.lean ====
section
/-! DEFINITION. One step: tests 2 to 9 of spec 60_exceptions.md R68. Test 1, the run's end at END_PC, is a
parameter of a run and stands in Machine/Run.lean (R17, 70_reset_and_hazards.md R77; log 5). -/

namespace Sys2Proof.Machine

/-- One step: fetch and decode the instruction at the pc, then its meaning (R65, R68). -/
def step (s : State) : Host.Outcome State Fault Refusal :=
  match fetchInstr s with
  | .ok i => exec i s
  | .error stop => settle (.error stop)

/-- The state with an instruction of the opcode table stored at its pc, the address the next step fetches from
(R33). It stands for the launcher's load of a program (R75; logs 4 and 22). -/
def State.withFetchWord (s : State) (nbits w : Nat) : State :=
  s.placeInstr (tableWord nbits w)

end Sys2Proof.Machine
end

