-- ==== Sys2Proof/Machine/Assembly.lean ====
section
/-! DEFINITION. The assembler lines of the four instructions (spec 30_encoding.md R50 to R52): the operands in their
order, what the spec says an assembler refuses, and the spelling the spec writes. Spellings on which the spec is
silent are rejected by name, and one of two spellings is chosen for a word that is an invalid form (decision D21,
log 21). There is no pseudo-instruction (R52). -/

namespace Sys2Proof.Machine

/-- The mnemonics, one per machine instruction (R50, R52). -/
inductive Mnemonic where
  | lwz
  | lwzu
  | lwzux
  | lwzx
deriving DecidableEq, Repr

/-- A base operand: the bare number `0`, or a register (R50). -/
inductive AsmBase where
  | zero
  | reg (n : RegNum)
deriving DecidableEq, Repr

/-- An assembler line: `mnemonic rd, d(base)` or `mnemonic rd, base, rb` (R50). -/
inductive AsmLine where
  | displacement (op : Mnemonic) (rd : RegNum) (d : Int) (base : AsmBase)
  | indexed (op : Mnemonic) (rd : RegNum) (base : AsmBase) (rb : RegNum)
deriving DecidableEq, Repr

/-- Why a line gives no instruction. -/
inductive AsmReject where
  /-- The operands are not those of the mnemonic's syntax line (R50). -/
  | operandShape
  /-- The displacement is not in -32768 to 32767 (R51). -/
  | displacementRange
  /-- An update form with RA = 0 or RA = RT: "assemblers will refuse to assemble" the first (R47, R51). -/
  | invalidForm
  /-- A spelling the spec does not settle: register r0, not the number 0, in an RA0 position (R50, N25). -/
  | spellingNotInSpec
deriving DecidableEq, Repr

/-- The base operand of an RA field in an RA0 position: number 0 is written as the bare `0` (R50). -/
def asmBaseRA0 (ra : RegNum) : AsmBase :=
  if ra = 0#5 then .zero else .reg ra

/-- The line of an instruction (R50). DESIGN CHOICE (log 21), safe: the base of an update form is spelt as its register
even in the invalid form RA = 0, which so reads `r0`; the spec writes such words both with `r0` and with the bare `0`
(95_test_vectors.md E1; K20, K22, U5, Y6, P5), and `assemble` accepts neither. -/
def disassemble : Instr → AsmLine
  | .lwz rt ra d => .displacement .lwz rt d.toInt (asmBaseRA0 ra)
  | .lwzu rt ra d => .displacement .lwzu rt d.toInt (.reg ra)
  | .lwzx rt ra rb => .indexed .lwzx rt (asmBaseRA0 ra) rb
  | .lwzux rt ra rb => .indexed .lwzux rt (.reg ra) rb

/-- The D field of a displacement, its low 16 bits in two's complement, where it is in range (R50, R51). -/
def asmDisp (d : Int) : Except AsmReject Disp :=
  if -32768 ≤ d ∧ d ≤ 32767 then .ok (BitVec.ofInt 16 d) else .error .displacementRange

/-- The RA field of a base operand in an RA0 position (R50). -/
def asmRA0 : AsmBase → Except AsmReject RegNum
  | .zero => .ok 0#5
  | .reg n => if n = 0#5 then .error .spellingNotInSpec else .ok n

/-- The RA field of an update form's base operand (R47, R50). -/
def asmRA (rt : RegNum) : AsmBase → Except AsmReject RegNum
  | .zero => .error .invalidForm
  | .reg n => if updateFormOk rt n then .ok n else .error .invalidForm

/-- The instruction of a line: each operand goes to its field (R50). -/
def assemble : AsmLine → Except AsmReject Instr
  | .displacement .lwz rd d base => do
    let ra ← asmRA0 base
    let d ← asmDisp d
    pure (.lwz rd ra d)
  | .displacement .lwzu rd d base => do
    let ra ← asmRA rd base
    let d ← asmDisp d
    pure (.lwzu rd ra d)
  | .displacement .lwzx _ _ _ => .error .operandShape
  | .displacement .lwzux _ _ _ => .error .operandShape
  | .indexed .lwzx rd base rb => do
    let ra ← asmRA0 base
    pure (.lwzx rd ra rb)
  | .indexed .lwzux rd base rb => do
    let ra ← asmRA rd base
    pure (.lwzux rd ra rb)
  | .indexed .lwz _ _ _ => .error .operandShape
  | .indexed .lwzu _ _ _ => .error .operandShape

/-- A mnemonic's spelling (R45). -/
def Mnemonic.spell : Mnemonic → String
  | .lwz => "lwz"
  | .lwzu => "lwzu"
  | .lwzux => "lwzux"
  | .lwzx => "lwzx"

/-- A register's spelling, `rN` (R50). -/
def spellReg (n : RegNum) : String := "r" ++ toString n.toNat

/-- A base operand's spelling (R50). -/
def AsmBase.spell : AsmBase → String
  | .zero => "0"
  | .reg n => spellReg n

/-- A line's spelling, with the displacement as a signed decimal (R50). -/
def AsmLine.spell : AsmLine → String
  | .displacement op rd d base => op.spell ++ " " ++ spellReg rd ++ ", " ++ toString d ++ "(" ++ base.spell ++ ")"
  | .indexed op rd base rb => op.spell ++ " " ++ spellReg rd ++ ", " ++ base.spell ++ ", " ++ spellReg rb

end Sys2Proof.Machine
end

