-- ==== Sys2Proof/Machine/Effects.lean ====
section
/-! DEFINITION. The "Register Effects" of each instruction: the registers it reads and the registers it writes (spec
10_state.md R10), as claims about frames and dependence use them. -/

namespace Sys2Proof.Machine

/-- The register an RA0 operand reads: none for register number 0 (R11). -/
def readsRA0 (ra : RegNum) : List RegNum :=
  if ra = 0#5 then [] else [ra]

/-- The registers an instruction reads (R10, R11). -/
def regsRead : Instr → List RegNum
  | .lwz _ ra _ => readsRA0 ra
  | .lwzu _ ra _ => [ra]
  | .lwzx _ ra rb => readsRA0 ra ++ [rb]
  | .lwzux _ ra rb => [ra, rb]

/-- The registers an instruction writes when it completes (R10). -/
def regsWritten : Instr → List RegNum
  | .lwz rt _ _ => [rt]
  | .lwzu rt ra _ => [rt, ra]
  | .lwzx rt _ _ => [rt]
  | .lwzux rt ra _ => [rt, ra]

end Sys2Proof.Machine
end

