-- ==== Sys2Proof/Machine/Run.lean ====
section
/-! DEFINITION. A run up to END_PC (spec 70_reset_and_hazards.md R77, 60_exceptions.md R65, R68 test 1). END_PC is a
boundary of the claim, not a behaviour of the chip, and no part of the state (R17, R77; decision D10, log 5). -/

namespace Sys2Proof.Machine

/-- How a run of at most so many steps stands. -/
inductive RunResult where
  /-- The pc reached END_PC: over and final, with the state then (R77). -/
  | final (s : State)
  /-- A step faulted or was refused: over and not final. `s` is the state before that step (R65). -/
  | stopped (why : Stop) (s : State)
  /-- The steps allowed are used up and the pc is not at END_PC. -/
  | unfinished (s : State)
deriving DecidableEq, Repr

/-- A run of at most `k` steps that ends at `endPc`, tested before each step and before any fetch (R68, R77). -/
def run (endPc : Addr) (k : Nat) (s : State) : RunResult :=
  match k with
  | 0 => if s.pc = endPc then .final s else .unfinished s
  | n + 1 =>
    if s.pc = endPc then .final s
    else
      match step s with
      | .next t => run endPc n t
      | .fault f => .stopped (.fault f) s
      | .refused r => .stopped (.refused r) s

end Sys2Proof.Machine
end

