-- ==== Sys2Proof/Machine/Launch.lean ====
section
/-! DEFINITION. The launch of a run (spec 70_reset_and_hazards.md R75, R77; decisions D6, D10, D16, log 4): the
OPEN parameters GPR0, ENTRY_PC, END_PC and MEM, and the start state they give. -/

namespace Sys2Proof.Machine

/-- The arguments of a run (R75, R77). -/
structure Launch where
  /-- `GPR0`: any value for every register. -/
  gpr0 : Vector Dword 32
  /-- `ENTRY_PC`. -/
  entryPc : Addr
  /-- `END_PC`. -/
  endPc : Addr
  /-- `MEM`. -/
  mem : Memory
deriving DecidableEq, Repr

/-- The launch state (R75). -/
def Launch.start (l : Launch) : State where
  gprs := l.gpr0
  pc := l.entryPc
  mem := l.mem

/-- The number of program words from ENTRY_PC to END_PC, `n` of `END_PC = ENTRY_PC + 4n` (R77). -/
def Launch.words (l : Launch) : Nat :=
  (l.endPc.toNat - l.entryPc.toNat) / 4

/-- The program's instruction bytes are all in MEM (R75). -/
def Launch.textPresent (l : Launch) : Bool :=
  (List.range (4 * l.words)).all fun k => (l.mem.readByte (l.entryPc.toNat + k)).isSome

/-- The constraints on the arguments: ENTRY_PC and END_PC multiples of 4, END_PC no lower than ENTRY_PC (so that it
is ENTRY_PC + 4n, at most 0xFFFF_FFFC), MEM in canonical form and holding the program's text (R75, R77). -/
def Launch.wf (l : Launch) : Bool :=
  decide (l.entryPc.toNat % 4 = 0) && decide (l.endPc.toNat % 4 = 0) &&
    decide (l.entryPc.toNat ≤ l.endPc.toNat) && l.mem.wf && l.textPresent

/-- The run of a launch: as many steps as its program has words (R77). -/
def Launch.run (l : Launch) : RunResult :=
  Sys2Proof.Machine.run l.endPc l.words l.start

end Sys2Proof.Machine
end

