-- ==== Sys2Proof/Safety.lean ====
section
/-! DEFINITION. What counts as a good state and a safe run, and the terms that statements about memory and frames
use. -/

namespace Sys2Proof.Machine

/-- The invariant of the machine: the memory keeps its canonical form and the pc is a multiple of 4 (spec 20_memory.md
R20, 10_state.md R12). -/
abbrev State.Inv (s : State) : Prop :=
  s.mem.wf = true ∧ s.pc.toNat % 4 = 0

/-- The memory holds four bytes from address `a` on, all within the 32-bit space: where `MemRead(a, 4)` is defined
(R22, R25). -/
abbrev Memory.HoldsWord (m : Memory) (a : Addr) (b0 b1 b2 b3 : Byte) : Prop :=
  a.toNat ≤ 0xFFFFFFFC ∧ m.readByte a.toNat = some b0 ∧ m.readByte (a.toNat + 1) = some b1 ∧
    m.readByte (a.toNat + 2) = some b2 ∧ m.readByte (a.toNat + 3) = some b3

/-- Of the four bytes from address `a` on, the one at offset `j` is absent and those below it are present (R25). -/
abbrev Memory.FirstAbsent (m : Memory) (a : Addr) (j : Nat) : Prop :=
  a.toNat ≤ 0xFFFFFFFC ∧ j < 4 ∧ m.readByte (a.toNat + j) = none ∧
    ∀ k < j, (m.readByte (a.toNat + k)).isSome = true

/-- The number four bytes stand for, the byte at the lowest address the most significant (R22). -/
def bigEndian (b0 b1 b2 b3 : Byte) : Nat :=
  b0.toNat * 2 ^ 24 + b1.toNat * 2 ^ 16 + b2.toNat * 2 ^ 8 + b3.toNat

/-- Every byte of memory reads the same in both states, the absent ones too. -/
def SameBytes (s t : State) : Prop :=
  ∀ a : Nat, t.mem.readByte a = s.mem.readByte a

/-- Every register but those listed holds the same in both states. -/
def OnlyChanges (rs : List RegNum) (s t : State) : Prop :=
  ∀ r : RegNum, r ∉ rs → t.gpr r = s.gpr r

/-- Neither a fault nor a refusal ends the run: it reaches END_PC (R77). -/
def RunResult.reachesEnd : RunResult → Bool
  | .final _ => true
  | .stopped _ _ => false
  | .unfinished _ => false

/-- The state a run stands in: its end state, or the state before the step that stopped it (R65, R77). -/
def RunResult.state : RunResult → State
  | .final s => s
  | .stopped _ s => s
  | .unfinished s => s

/-- A launch is safe when its arguments are admitted and its run reaches END_PC (R75, R77). -/
def Launch.safe (l : Launch) : Bool :=
  l.wf && l.run.reachesEnd

end Sys2Proof.Machine
end

