-- ==== Sys2Proof/Certificates/Slice0/Obligations.lean ====
section
/-! DEFINITION. The statements for the provers. A docstring names the numbered rule of spec/ a statement formalises, or
says that it rests on a choice of the spec's own (a decision D<n>) or of the model's, with its log entry. -/

open Sys2Proof Sys2Proof.Machine

/-! ### Encoding and decoding -/

/-- Decoding an encoded instruction gives it back, as a word and as bytes with the rest of the stream handed on, for
every operand value of the four instructions (30_encoding.md sections 2 and 4). -/
def Obligations.EncodeThenDecodeIsIdentity : Prop :=
  ∀ (i : Instr) (rest : List Byte),
    decode (encode i) = .ok i ∧ decodeBytes (encodeBytes i ++ rest) = .ok (i, rest)

/-- Each accepted word is the encoding of the instruction it decodes to: no bit of a word is dropped, and no two words
are one instruction (30_encoding.md section 4). For the X-form words this holds because a word with Rc = 1 is not accepted,
the spec's own decision D2 (log 13). -/
def Obligations.DecodedWordsReencode : Prop :=
  ∀ (w : Word) (i : Instr), decode w = .ok i → encode i = w

/-- The decoder is the match-and-mask table of 30_encoding.md section 4, its rows disjoint, every other word outside the
spec. That an X-form word with Rc = 1 matches no row, and that other words are refused, are the spec's own decisions D2
and D1 (logs 13 and 12). -/
def Obligations.DecodeFollowsMatchAndMask : Prop :=
  ∀ w : Word,
    (w &&& 0xFC000000#32 = 0x80000000#32 →
      decode w = .ok (.lwz (w.extractLsb 25 21) (w.extractLsb 20 16) (w.extractLsb 15 0))) ∧
    (w &&& 0xFC000000#32 = 0x84000000#32 →
      decode w = .ok (.lwzu (w.extractLsb 25 21) (w.extractLsb 20 16) (w.extractLsb 15 0))) ∧
    (w &&& 0xFC0007FF#32 = 0x7C00002E#32 →
      decode w = .ok (.lwzx (w.extractLsb 25 21) (w.extractLsb 20 16) (w.extractLsb 15 11))) ∧
    (w &&& 0xFC0007FF#32 = 0x7C00006E#32 →
      decode w = .ok (.lwzux (w.extractLsb 25 21) (w.extractLsb 20 16) (w.extractLsb 15 11))) ∧
    (w &&& 0xFC000000#32 ≠ 0x80000000#32 → w &&& 0xFC000000#32 ≠ 0x84000000#32 →
      w &&& 0xFC0007FF#32 ≠ 0x7C00002E#32 → w &&& 0xFC0007FF#32 ≠ 0x7C00006E#32 →
      decode w = .error .notInSpec) ∧
    opcodeRows.Pairwise fun r r' => ¬(r.accepts w = true ∧ r'.accepts w = true)

/-- R41 and R42: the word of each form is the sum of its placed fields, and each field is read back from its IBM bits. -/
def Obligations.FormWordsArePlacedFieldSums : Prop :=
  (∀ (opcd : BitVec 6) (rt ra : RegNum) (d : Disp),
    (encodeD opcd rt ra d).toNat = opcd.toNat * 2 ^ 26 + rt.toNat * 2 ^ 21 + ra.toNat * 2 ^ 16 + d.toNat ∧
    ibmField 0 6 (encodeD opcd rt ra d) = opcd ∧ fieldRT (encodeD opcd rt ra d) = rt ∧
    fieldRA (encodeD opcd rt ra d) = ra ∧ fieldD (encodeD opcd rt ra d) = d) ∧
  ∀ (opcd : BitVec 6) (rt ra rb : RegNum) (xo : BitVec 10) (rc : BitVec 1),
    (encodeX opcd rt ra rb xo rc).toNat =
      opcd.toNat * 2 ^ 26 + rt.toNat * 2 ^ 21 + ra.toNat * 2 ^ 16 + rb.toNat * 2 ^ 11 + xo.toNat * 2 + rc.toNat ∧
    ibmField 0 6 (encodeX opcd rt ra rb xo rc) = opcd ∧ fieldRT (encodeX opcd rt ra rb xo rc) = rt ∧
    fieldRA (encodeX opcd rt ra rb xo rc) = ra ∧ fieldRB (encodeX opcd rt ra rb xo rc) = rb ∧
    ibmField 21 10 (encodeX opcd rt ra rb xo rc) = xo ∧ ibmField 31 1 (encodeX opcd rt ra rb xo rc) = rc

/-- R45: the primary and extended opcodes of the four instructions, whatever their operands, and the opcode words with
all other fields 0. -/
def Obligations.OpcodesSelectTheFourInstructions : Prop :=
  (∀ (rt ra : RegNum) (d : Disp),
    ibmField 0 6 (encode (.lwz rt ra d)) = 32#6 ∧ ibmField 0 6 (encode (.lwzu rt ra d)) = 33#6) ∧
  (∀ rt ra rb : RegNum,
    ibmField 0 6 (encode (.lwzx rt ra rb)) = 31#6 ∧ ibmField 21 10 (encode (.lwzx rt ra rb)) = 23#10 ∧
    ibmField 0 6 (encode (.lwzux rt ra rb)) = 31#6 ∧ ibmField 21 10 (encode (.lwzux rt ra rb)) = 55#10) ∧
  encode (.lwz 0#5 0#5 0#16) = 0x80000000#32 ∧ encode (.lwzu 0#5 0#5 0#16) = 0x84000000#32 ∧
  encode (.lwzx 0#5 0#5 0#5) = 0x7C00002E#32 ∧ encode (.lwzux 0#5 0#5 0#5) = 0x7C00006E#32

/-- A few words of 95_test_vectors.md section 2 (K1, K5, K9, K13, K17) decode to the instructions they stand for, and a
few (K26, K28, K30) to none; the refusals are the spec's own decisions D1 and D2 (logs 12 and 13). -/
def Obligations.SampleWordsDecode : Prop :=
  decode 0x80640008#32 = .ok (.lwz 3#5 4#5 0x0008#16) ∧
  decode 0x83FFFFFF#32 = .ok (.lwz 31#5 31#5 0xFFFF#16) ∧
  decode 0x87FEFFFF#32 = .ok (.lwzu 31#5 30#5 0xFFFF#16) ∧
  decode 0x7FFFF82E#32 = .ok (.lwzx 31#5 31#5 31#5) ∧
  decode 0x7FFEF86E#32 = .ok (.lwzux 31#5 30#5 31#5) ∧
  decode 0x7C64282F#32 = .error .notInSpec ∧
  decode 0x7C64282C#32 = .error .notInSpec ∧
  decode 0x00000000#32 = .error .notInSpec

/-! ### What each instruction does: its completion, its result and its frame -/

/-- `lwz` completes wherever its four bytes exist (40_load_word_and_zero.md section 2): RT, r0 included, receives the
big-endian word with the high half zero, every other register and every byte of memory stays, and the pc advances by 4.
That the address is the low half of the sum and that the byte formula is this one are decision D5 (log 7) and passage G2
(log 15) of the spec. -/
def Obligations.LwzLoadsWordAndCompletes : Prop :=
  ∀ (rt ra : RegNum) (d : Disp) (s : State) (b0 b1 b2 b3 : Byte),
    s.mem.HoldsWord (((if ra = 0#5 then 0#64 else s.gpr ra) + d.signExtend 64).setWidth 32) b0 b1 b2 b3 →
    ∃ t, exec (.lwz rt ra d) s = .next t ∧
      (t.gpr rt).toNat = bigEndian b0 b1 b2 b3 ∧ (∀ r, r ≠ rt → t.gpr r = s.gpr r) ∧
      t.pc = s.pc + 4#32 ∧ SameBytes s t

/-- `lwzu` in a valid form completes wherever its four bytes exist (40_load_word_and_zero.md section 2): RT receives the
word, RA the effective address, and the rest is as for `lwz`. That RA receives all 64 bits is the spec's own decision D4
(log 6); the address and the byte formula rest on D5 and G2 (logs 7 and 15). -/
def Obligations.LwzuLoadsUpdatesAndCompletes : Prop :=
  ∀ (rt ra : RegNum) (d : Disp) (s : State) (b0 b1 b2 b3 : Byte),
    ra ≠ 0#5 → ra ≠ rt →
    s.mem.HoldsWord ((s.gpr ra + d.signExtend 64).setWidth 32) b0 b1 b2 b3 →
    ∃ t, exec (.lwzu rt ra d) s = .next t ∧
      (t.gpr rt).toNat = bigEndian b0 b1 b2 b3 ∧ t.gpr ra = s.gpr ra + d.signExtend 64 ∧
      (∀ r, r ≠ rt → r ≠ ra → t.gpr r = s.gpr r) ∧ t.pc = s.pc + 4#32 ∧ SameBytes s t

/-- `lwzx` completes wherever its four bytes exist, for every RB, r0 included (40_load_word_and_zero.md section 2). The
address and the byte formula rest on the spec's D5 and G2 (logs 7 and 15). -/
def Obligations.LwzxLoadsWordAndCompletes : Prop :=
  ∀ (rt ra rb : RegNum) (s : State) (b0 b1 b2 b3 : Byte),
    s.mem.HoldsWord (((if ra = 0#5 then 0#64 else s.gpr ra) + s.gpr rb).setWidth 32) b0 b1 b2 b3 →
    ∃ t, exec (.lwzx rt ra rb) s = .next t ∧
      (t.gpr rt).toNat = bigEndian b0 b1 b2 b3 ∧ (∀ r, r ≠ rt → t.gpr r = s.gpr r) ∧
      t.pc = s.pc + 4#32 ∧ SameBytes s t

/-- `lwzux` in a valid form completes wherever its four bytes exist, RB = RA and RB = RT included
(40_load_word_and_zero.md section 2). The full write-back is the spec's own decision D4 (log 6); the address and the byte
formula rest on D5 and G2 (logs 7 and 15). -/
def Obligations.LwzuxLoadsUpdatesAndCompletes : Prop :=
  ∀ (rt ra rb : RegNum) (s : State) (b0 b1 b2 b3 : Byte),
    ra ≠ 0#5 → ra ≠ rt →
    s.mem.HoldsWord ((s.gpr ra + s.gpr rb).setWidth 32) b0 b1 b2 b3 →
    ∃ t, exec (.lwzux rt ra rb) s = .next t ∧
      (t.gpr rt).toNat = bigEndian b0 b1 b2 b3 ∧ t.gpr ra = s.gpr ra + s.gpr rb ∧
      (∀ r, r ≠ rt → r ≠ ra → t.gpr r = s.gpr r) ∧ t.pc = s.pc + 4#32 ∧ SameBytes s t

/-- A well-formed load completes at every alignment of its address (20_memory.md section 3): whatever the low bits of the
address, RT receives the four bytes that start at it, in order, with no trap, no rounding and no rotation; and what RT
receives is the zero-extended result of the read operation (40_load_word_and_zero.md section 1). That the address is the low
half of the effective address and the byte formula are decision D5 (log 7) and passage G2 (log 15) of the spec. -/
def Obligations.LoadsCompleteAtEveryAlignment : Prop :=
  ∀ (i : Instr) (s : State), i.wellFormed = true →
    (∀ b0 b1 b2 b3 : Byte, s.mem.HoldsWord ((effectiveAddressOf i s).setWidth 32) b0 b1 b2 b3 →
      ∃ t, exec i s = .next t ∧ (t.gpr i.rt).toNat = bigEndian b0 b1 b2 b3) ∧
    ∀ w : Word, s.mem.readWord (memAddress (effectiveAddressOf i s)) = .ok w →
      ∃ t, exec i s = .next t ∧ t.gpr i.rt = w.setWidth 64

/-- R60: the only state a completed instruction changes is `x[RT]`, `x[RA]` for the update forms, and the pc; there is
no flag to change. -/
def Obligations.OnlyDestinationsAndPcChange : Prop :=
  (∀ (rt ra : RegNum) (d : Disp) (s t : State), exec (.lwz rt ra d) s = .next t → OnlyChanges [rt] s t ∧ SameBytes s t) ∧
  (∀ (rt ra : RegNum) (d : Disp) (s t : State),
    exec (.lwzu rt ra d) s = .next t → OnlyChanges [rt, ra] s t ∧ SameBytes s t) ∧
  (∀ (rt ra rb : RegNum) (s t : State), exec (.lwzx rt ra rb) s = .next t → OnlyChanges [rt] s t ∧ SameBytes s t) ∧
  ∀ (rt ra rb : RegNum) (s t : State),
    exec (.lwzux rt ra rb) s = .next t → OnlyChanges [rt, ra] s t ∧ SameBytes s t

/-- R62: no instruction branches; each, when it completes, sets `pc <- pc + 4`, as a meaning and as a step. -/
def Obligations.CompletedInstructionsAdvancePcByFour : Prop :=
  (∀ (i : Instr) (s t : State), exec i s = .next t → t.pc = s.pc + 4#32) ∧
  ∀ s t : State, step s = .next t → t.pc = s.pc + 4#32

/-- The two addressing modes (40_load_word_and_zero.md section 3). A non-update form takes its base as RA0 and leaves it
alone; an update form takes RA (not 0, not RT), accesses the new address and replaces RA with it. That an update form with
RA = 0 or RA = RT never completes is the spec's own decision D3 (log 14); that the address is the low half and that RA
receives all 64 bits are its decisions D5 and D4 (logs 7 and 6). -/
def Obligations.AddressingModesKeepOrReplaceBase : Prop :=
  (∀ (rt ra : RegNum) (d : Disp) (s t : State), exec (.lwz rt ra d) s = .next t →
    s.mem.readWord (((if ra = 0#5 then 0#64 else s.gpr ra) + d.signExtend 64).setWidth 32) =
      .ok ((t.gpr rt).setWidth 32) ∧ (ra ≠ rt → t.gpr ra = s.gpr ra)) ∧
  (∀ (rt ra rb : RegNum) (s t : State), exec (.lwzx rt ra rb) s = .next t →
    s.mem.readWord (((if ra = 0#5 then 0#64 else s.gpr ra) + s.gpr rb).setWidth 32) =
      .ok ((t.gpr rt).setWidth 32) ∧ (ra ≠ rt → t.gpr ra = s.gpr ra)) ∧
  (∀ (rt ra : RegNum) (d : Disp) (s t : State), exec (.lwzu rt ra d) s = .next t →
    ra ≠ 0#5 ∧ ra ≠ rt ∧ t.gpr ra = s.gpr ra + d.signExtend 64 ∧
    s.mem.readWord ((t.gpr ra).setWidth 32) = .ok ((t.gpr rt).setWidth 32)) ∧
  ∀ (rt ra rb : RegNum) (s t : State), exec (.lwzux rt ra rb) s = .next t →
    ra ≠ 0#5 ∧ ra ≠ rt ∧ t.gpr ra = s.gpr ra + s.gpr rb ∧
    s.mem.readWord ((t.gpr ra).setWidth 32) = .ok ((t.gpr rt).setWidth 32)

/-- R11: with RA = 0 the base of `lwz` and `lwzx` is the literal zero, whatever r0 holds; with RA in 1 to 31 it is
`x[RA]`; r0 named by RB is read and r0 named by RT is written; the update forms have no zero rule, RA = 0 being an
invalid form there. -/
def Obligations.ZeroBaseIsLiteralZeroNotR0 : Prop :=
  (∀ (rt : RegNum) (d : Disp) (s : State) (w : Word),
    s.mem.readWord (memAddress (d.signExtend 64)) = .ok w →
    ∃ t, exec (.lwz rt 0#5 d) s = .next t ∧ t.gpr rt = w.setWidth 64) ∧
  (∀ (rt rb : RegNum) (s : State) (w : Word),
    s.mem.readWord (memAddress (s.gpr rb)) = .ok w →
    ∃ t, exec (.lwzx rt 0#5 rb) s = .next t ∧ t.gpr rt = w.setWidth 64) ∧
  (∀ (rt ra : RegNum) (d : Disp) (s : State) (w : Word),
    ra ≠ 0#5 → s.mem.readWord (memAddress (s.gpr ra + d.signExtend 64)) = .ok w →
    ∃ t, exec (.lwz rt ra d) s = .next t ∧ t.gpr rt = w.setWidth 64) ∧
  (∀ (rt ra rb : RegNum) (s : State) (w : Word),
    ra ≠ 0#5 → s.mem.readWord (memAddress (s.gpr ra + s.gpr rb)) = .ok w →
    ∃ t, exec (.lwzx rt ra rb) s = .next t ∧ t.gpr rt = w.setWidth 64) ∧
  ∀ (rt rb : RegNum) (d : Disp), (Instr.lwzu rt 0#5 d).wellFormed = false ∧ (Instr.lwzux rt 0#5 rb).wellFormed = false

/-- The general registers (10_state.md section 1): 32 registers of 64 bits in one bank, none hard-wired (each reads back what was last written, and writing it
leaves the others), and the table of what each instruction reads and writes: what it does depends on no register it does
not read, and it changes none it does not write. -/
def Obligations.RegisterEffectsTable : Prop :=
  (∀ (s : State) (r : RegNum) (v : Dword), (s.setGpr r v).gpr r = v ∧ ∀ q, q ≠ r → (s.setGpr r v).gpr q = s.gpr q) ∧
  (∀ (rt ra rb : RegNum) (d : Disp),
    regsRead (.lwz rt ra d) = (if ra = 0#5 then [] else [ra]) ∧ regsWritten (.lwz rt ra d) = [rt] ∧
    regsRead (.lwzu rt ra d) = [ra] ∧ regsWritten (.lwzu rt ra d) = [rt, ra] ∧
    regsRead (.lwzux rt ra rb) = [ra, rb] ∧ regsWritten (.lwzux rt ra rb) = [rt, ra] ∧
    regsRead (.lwzx rt ra rb) = (if ra = 0#5 then [rb] else [ra, rb]) ∧ regsWritten (.lwzx rt ra rb) = [rt]) ∧
  (∀ (i : Instr) (s t : State), exec i s = .next t → OnlyChanges (regsWritten i) s t) ∧
  ∀ (i : Instr) (s s' : State), s'.mem = s.mem → (∀ r ∈ regsRead i, s'.gpr r = s.gpr r) →
    (∀ t, exec i s = .next t → ∃ t', exec i s' = .next t' ∧ ∀ r ∈ regsWritten i, t'.gpr r = t.gpr r) ∧
    (∀ f, exec i s = .fault f → exec i s' = .fault f) ∧ ∀ e, exec i s = .refused e → exec i s' = .refused e

/-- What an instruction does depends on memory through the four bytes at its address and no others: with any other
memory that agrees on those four (absent ones too) it completes with the same registers and pc, or stops the same way
(20_memory.md section 5; that a read has no side effect is the spec's own decision D13, log 18). -/
def Obligations.OutcomeDependsOnFourBytesOnly : Prop :=
  ∀ (i : Instr) (s : State) (m : Memory),
    (∀ k < 4, m.readByte ((memAddress (effectiveAddressOf i s)).toNat + k) =
      s.mem.readByte ((memAddress (effectiveAddressOf i s)).toNat + k)) →
    (∀ t, exec i s = .next t → exec i { s with mem := m } = .next { t with mem := m }) ∧
    (∀ f, exec i s = .fault f → exec i { s with mem := m } = .fault f) ∧
    ∀ e, exec i s = .refused e → exec i { s with mem := m } = .refused e

/-- The high half of the effective address takes no part in the access: two states of one memory whose effective
addresses agree in the low 32 bits load the same word, or stop the same way. The spec's own decision D5 (20_memory.md
section 1; log 7). -/
def Obligations.HighHalfOfAddressIsIgnored : Prop :=
  ∀ (i : Instr) (s s' : State), s'.mem = s.mem →
    (effectiveAddressOf i s').setWidth 32 = (effectiveAddressOf i s).setWidth 32 →
    (∀ t, exec i s = .next t → ∃ t', exec i s' = .next t' ∧ t'.gpr i.rt = t.gpr i.rt) ∧
    (∀ f, exec i s = .fault f → exec i s' = .fault f) ∧ ∀ e, exec i s = .refused e → exec i s' = .refused e

/-! ### Where an instruction stops -/

/-- The update forms are refused InvalidForm just where RA = 0 or RA = RT, and the non-update forms never; RB is free.
The refusal of these undefined forms is the spec's own decision D3 (30_encoding.md section 5; log 14). -/
def Obligations.InvalidFormsAreRefused : Prop :=
  ∀ s : State,
    (∀ (rt ra : RegNum) (d : Disp), exec (.lwzu rt ra d) s = .refused .invalidForm ↔ ra = 0#5 ∨ ra = rt) ∧
    (∀ rt ra rb : RegNum, exec (.lwzux rt ra rb) s = .refused .invalidForm ↔ ra = 0#5 ∨ ra = rt) ∧
    (∀ (rt ra : RegNum) (d : Disp), exec (.lwz rt ra d) s ≠ .refused .invalidForm) ∧
    ∀ rt ra rb : RegNum, exec (.lwzx rt ra rb) s ≠ .refused .invalidForm

/-- A well-formed load whose address is above 0xFFFF_FFFC is refused AddressWrap: the spec's own decision D7
(20_memory.md section 3; log 8). -/
def Obligations.AccessPastTopIsRefused : Prop :=
  ∀ (i : Instr) (s : State), i.wellFormed = true →
    0xFFFFFFFC < (effectiveAddressOf i s).toNat % 2 ^ 32 → exec i s = .refused .addressWrap

/-- A well-formed load with an absent byte faults at the lowest absent address of its four: the spec's own decision D6
(20_memory.md section 4; log 9). -/
def Obligations.AbsentByteFaultsAtLowestAddress : Prop :=
  ∀ (i : Instr) (s : State) (j : Nat), i.wellFormed = true →
    s.mem.FirstAbsent (memAddress (effectiveAddressOf i s)) j →
    exec i s = .fault (.memFault (memAddress (effectiveAddressOf i s) + BitVec.ofNat 32 j))

/-- A step that faults does so for a byte that is absent, one of the four of its fetch or of the data access of the
instruction it fetched, and for no other cause: the spec's own decision D6 (60_exceptions.md section 2; log 9). -/
def Obligations.FaultsNameAbsentBytes : Prop :=
  ∀ (s : State) (f : Fault), step s = .fault f →
    ∃ (b : Addr) (k : Nat), f = .memFault b ∧ k < 4 ∧ s.mem.readByte b.toNat = none ∧
      (b.toNat = s.pc.toNat + k ∨
        ∃ (b0 b1 b2 b3 : Byte) (i : Instr), s.mem.HoldsWord s.pc b0 b1 b2 b3 ∧
          decode (b0 ++ b1 ++ b2 ++ b3) = .ok i ∧ i.wellFormed = true ∧
          b.toNat = (effectiveAddressOf i s).toNat % 2 ^ 32 + k)

/-- The closed list of refusals, each raised only by its cause: the spec's own decisions D1, D3, D7, D8, D9
(60_exceptions.md section 2; logs 8, 10, 11, 12, 14). No step answers that an instruction is not modelled. -/
def Obligations.RefusalsAreTheClosedList : Prop :=
  ∀ (s : State) (r : Refusal), step s = .refused r →
    (r = .misalignedPc ∧ s.pc.toNat % 4 ≠ 0) ∨ (r = .pcWrap ∧ s.pc = 0xFFFFFFFC#32) ∨
    ∃ b0 b1 b2 b3 : Byte, s.mem.HoldsWord s.pc b0 b1 b2 b3 ∧
      ((r = .notInSpec ∧ decode (b0 ++ b1 ++ b2 ++ b3) = .error .notInSpec) ∨
        ∃ i : Instr, decode (b0 ++ b1 ++ b2 ++ b3) = .ok i ∧
          ((r = .invalidForm ∧ i.wellFormed = false) ∨
            (r = .addressWrap ∧ i.wellFormed = true ∧ 0xFFFFFFFC < (effectiveAddressOf i s).toNat % 2 ^ 32)))

/-- A fetched word that matches none of the four rows is refused NotInSpec, and does not trap: the spec's own decisions
D1 and, for Rc = 1, D2 (30_encoding.md section 5; logs 12 and 13). -/
def Obligations.WordsOutsideTableAreRefused : Prop :=
  ∀ (s : State) (b0 b1 b2 b3 : Byte),
    s.pc.toNat % 4 = 0 → s.pc ≠ 0xFFFFFFFC#32 → s.mem.HoldsWord s.pc b0 b1 b2 b3 →
    (b0 ++ b1 ++ b2 ++ b3) &&& 0xFC000000#32 ≠ 0x80000000#32 →
    (b0 ++ b1 ++ b2 ++ b3) &&& 0xFC000000#32 ≠ 0x84000000#32 →
    (b0 ++ b1 ++ b2 ++ b3) &&& 0xFC0007FF#32 ≠ 0x7C00002E#32 →
    (b0 ++ b1 ++ b2 ++ b3) &&& 0xFC0007FF#32 ≠ 0x7C00006E#32 →
    step s = .refused .notInSpec

/-! ### Steps -/

/-- A step runs the decoded instruction: where the pc is a multiple of 4 and not 0xFFFF_FFFC and its four bytes decode to
an instruction, the step is that instruction's meaning, with nothing added around it. The byte order and the alignment of
the fetch are the spec's own decision D8 (20_memory.md section 7; log 10). -/
def Obligations.StepRunsDecodedInstruction : Prop :=
  ∀ (s : State) (b0 b1 b2 b3 : Byte) (i : Instr),
    s.pc.toNat % 4 = 0 → s.pc ≠ 0xFFFFFFFC#32 → s.mem.HoldsWord s.pc b0 b1 b2 b3 →
    decode (b0 ++ b1 ++ b2 ++ b3) = .ok i → step s = exec i s

/-- A word placed by `withFetchWord` is the instruction the next step runs; the placing changes the four bytes at the pc
and nothing else. The model's own loader (logs 4 and 22), over the fetch of decision D8. -/
def Obligations.PlacedInstructionRunsNext : Prop :=
  ∀ (s : State) (i : Instr), s.pc.toNat % 4 = 0 → s.pc ≠ 0xFFFFFFFC#32 →
    decodeTableWord 32 (encode i).toNat = some i ∧
    step (s.withFetchWord 32 (encode i).toNat) = exec i (s.withFetchWord 32 (encode i).toNat) ∧
    (s.withFetchWord 32 (encode i).toNat).pc = s.pc ∧ OnlyChanges [] s (s.withFetchWord 32 (encode i).toNat) ∧
    ∀ a : Nat, (a < s.pc.toNat ∨ s.pc.toNat + 3 < a) →
      (s.withFetchWord 32 (encode i).toNat).mem.readByte a = s.mem.readByte a

/-- The order of tests within one step of a run, first failure first: run end, MisalignedPc, PcWrap, fetch MemFault,
NotInSpec, InvalidForm, AddressWrap, data MemFault, commit; every stop leaves the state before the step. The spec's own
decisions D17 and D22 (60_exceptions.md section 3; log 17), with the run end of D10 (log 5). -/
def Obligations.StepTestsInOrder : Prop :=
  ∀ (endPc : Addr) (k : Nat) (s : State),
    (s.pc = endPc → run endPc (k + 1) s = .final s) ∧
    (s.pc ≠ endPc →
      (s.pc.toNat % 4 ≠ 0 → run endPc (k + 1) s = .stopped (.refused .misalignedPc) s) ∧
      (s.pc = 0xFFFFFFFC#32 → run endPc (k + 1) s = .stopped (.refused .pcWrap) s) ∧
      (s.pc.toNat % 4 = 0 → s.pc ≠ 0xFFFFFFFC#32 →
        (∀ j, s.mem.FirstAbsent s.pc j →
          run endPc (k + 1) s = .stopped (.fault (.memFault (s.pc + BitVec.ofNat 32 j))) s) ∧
        ∀ b0 b1 b2 b3 : Byte, s.mem.HoldsWord s.pc b0 b1 b2 b3 →
          (∀ e, decode (b0 ++ b1 ++ b2 ++ b3) = .error e → run endPc (k + 1) s = .stopped (.refused .notInSpec) s) ∧
          ∀ i, decode (b0 ++ b1 ++ b2 ++ b3) = .ok i →
            (i.wellFormed = false → run endPc (k + 1) s = .stopped (.refused .invalidForm) s) ∧
            (i.wellFormed = true →
              (0xFFFFFFFC < (effectiveAddressOf i s).toNat % 2 ^ 32 →
                run endPc (k + 1) s = .stopped (.refused .addressWrap) s) ∧
              (∀ j, s.mem.FirstAbsent (memAddress (effectiveAddressOf i s)) j →
                run endPc (k + 1) s =
                  .stopped (.fault (.memFault (memAddress (effectiveAddressOf i s) + BitVec.ofNat 32 j))) s) ∧
              ∀ c0 c1 c2 c3 : Byte, s.mem.HoldsWord (memAddress (effectiveAddressOf i s)) c0 c1 c2 c3 →
                ∃ t, step s = .next t ∧ run endPc (k + 1) s = run endPc k t)))

/-- The pc of a step: a multiple of 4, else MisalignedPc; not 0xFFFF_FFFC, else PcWrap; and where the step completes, 4
higher with no wrap. The spec's own decisions D8 and D9 (10_state.md section 2; logs 10 and 11). -/
def Obligations.PcIsAlignedAndNeverWraps : Prop :=
  ∀ s : State,
    (s.pc.toNat % 4 ≠ 0 → step s = .refused .misalignedPc) ∧
    (s.pc = 0xFFFFFFFC#32 → step s = .refused .pcWrap) ∧
    ∀ t, step s = .next t → s.pc.toNat % 4 = 0 ∧ t.pc.toNat = s.pc.toNat + 4

/-- The invariant of the machine: canonical memory and an aligned pc (decision D8, log 10) are kept by every step, and so
by every run. -/
def Obligations.StepAndRunKeepInvariant : Prop :=
  (∀ s t : State, s.Inv → step s = .next t → t.Inv) ∧
  ∀ (endPc : Addr) (k : Nat) (s : State), s.Inv → (run endPc k s).state.Inv

/-- The reset state meets the invariant. Its values are the model's choice (logs 1 to 3). -/
def Obligations.ResetMeetsInvariant : Prop :=
  State.reset.Inv

/-- What reset leaves is the model's choice, since the spec states no reset value: every register 0 (log 1), the pc 0
(log 2), no byte of memory (log 3); so the first step from it, with nothing placed, faults at address 0 (log 4). -/
def Obligations.ResetLeavesTheModelsValues : Prop :=
  (∀ r : RegNum, State.reset.gpr r = 0#64) ∧ State.reset.pc = 0#32 ∧
  (∀ a : Nat, State.reset.mem.readByte a = none) ∧ step State.reset = .fault (.memFault 0#32)

/-! ### Memory and arithmetic -/

/-- `MemRead(a, 4)` where it is defined: the byte at the lowest address is the most significant, at any alignment, and a
byte placed at another address is not seen. The byte formula is the spec's passage G2 (20_memory.md section 2; log 15). -/
def Obligations.WordReadIsBigEndian : Prop :=
  ∀ (m : Memory) (a : Addr) (b0 b1 b2 b3 : Byte), m.HoldsWord a b0 b1 b2 b3 →
    m.readWord a = .ok (BitVec.ofNat 32 (bigEndian b0 b1 b2 b3)) ∧
    ∀ (x : Addr) (b : Byte), (x.toNat < a.toNat ∨ a.toNat + 3 < x.toNat) →
      (m.placeByte x b).readWord a = m.readWord a

/-- R61: the effective-address sum is modulo 2^64, the address its residue modulo 2^32, the loaded word keeps its value. -/
def Obligations.AddressArithmeticIsModular : Prop :=
  ∀ (base offset : Dword) (w : Word),
    (effectiveAddress base offset).toNat = (base.toNat + offset.toNat) % 2 ^ 64 ∧
    (memAddress (effectiveAddress base offset)).toNat = (base.toNat + offset.toNat) % 2 ^ 32 ∧
    (zeroExtend64 w).toNat = w.toNat

/-- R43: the displacement is signed, from -32768 to 32767, neither scaled nor shifted, with the rule's examples. -/
def Obligations.DisplacementIsSignExtended : Prop :=
  (∀ d : Disp, (extS d).toInt = d.toInt ∧ -32768 ≤ d.toInt ∧ d.toInt ≤ 32767) ∧
  (extS 0x0008#16).toInt = 8 ∧ (extS 0x7FFF#16).toInt = 32767 ∧ extS 0x8000#16 = 0xFFFFFFFFFFFF8000#64 ∧
  (extS 0xFFFC#16).toInt = -4 ∧ (extS 0xFFFF#16).toInt = -1

/-- The two readings of the write-back agree on an effective address just where its high half is zero (90_conflicts.md
C1); that the model takes the 64-bit reading is the spec's own decision D4 (log 6). -/
def Obligations.WriteBackReadingsAgreeWhenHighHalfZero : Prop :=
  ∀ ea : Dword, (updateValue true ea = updateValue false ea ↔ ea.extractLsb 63 32 = 0#32) ∧
    updateValue Config.writeback32 ea = ea

/-! ### Runs and launches -/

/-- MEM is constant over a run: no step and no run changes any of it. The spec's own decision D11 (20_memory.md section
6; log 16). -/
def Obligations.MemoryIsConstantOverRuns : Prop :=
  (∀ s t : State, step s = .next t → t.mem = s.mem) ∧
  ∀ (endPc : Addr) (k : Nat) (s : State), (run endPc k s).state.mem = s.mem

/-- A run to an end `n` words ahead cannot loop: it is not final before `n` steps, and after `n` steps it has reached
END_PC or stopped in a fault or a refusal; so the run of an admitted launch always ends in one of the two. The spec's own
decision D10 (70_reset_and_hazards.md section 2; log 5). -/
def Obligations.RunReachesEndAfterExactlyItsWordsOrStops : Prop :=
  (∀ (endPc : Addr) (n : Nat) (s : State), endPc.toNat = s.pc.toNat + 4 * n →
    (∀ k < n, ∀ t, run endPc k s ≠ .final t) ∧
    ((∃ t, run endPc n s = .final t ∧ t.pc = endPc) ∨ ∃ why t, run endPc n s = .stopped why t)) ∧
  ∀ l : Launch, l.wf = true →
    (∃ t, l.run = .final t ∧ t.pc = l.endPc) ∨ ∃ why t, l.run = .stopped why t

/-- A stop is terminal and precise: a run stops in the state that so many completed steps of 4 bytes have led to, and the
step from that state answers the stop itself. The spec's own decisions D14 and D17 (60_exceptions.md sections 1 and 3;
logs 9 and 17). -/
def Obligations.StopsArePreciseAndTerminal : Prop :=
  ∀ (endPc : Addr) (k : Nat) (s t : State) (why : Stop), run endPc k s = .stopped why t →
    ∃ n < k, run endPc n s = .unfinished t ∧ t.pc = s.pc + BitVec.ofNat 32 (4 * n) ∧
      step t = settle (.error why) ∧ ∀ j, n < j → run endPc j s = .stopped why t

/-- With the program's text in MEM, a run of an admitted launch faults only for a byte outside that text. The spec's own
decisions D6 and D16 (70_reset_and_hazards.md section 1; logs 4 and 9). -/
def Obligations.AdmittedLaunchFaultsOnlyOutsideItsText : Prop :=
  ∀ (l : Launch) (b : Addr) (t : State), l.wf = true → l.run = .stopped (.fault (.memFault b)) t →
    (b.toNat < l.entryPc.toNat ∨ l.endPc.toNat ≤ b.toNat) ∧ t.mem = l.mem

/-- A launch starts from the arguments it is given, every register value and memory admitted. The spec's own decision D16
(70_reset_and_hazards.md section 1; log 4). -/
def Obligations.LaunchStartsFromItsArguments : Prop :=
  ∀ l : Launch, (∀ r : RegNum, l.start.gpr r = l.gpr0[r.toNat]'r.isLt) ∧ l.start.pc = l.entryPc ∧ l.start.mem = l.mem

/-! ### Assembler lines -/

/-- Each well-formed instruction has one assembler line, with its operands in the order of 30_encoding.md section 6, and
the line assembles to it; no line assembles to an invalid form or to an instruction with another line. Spellings the spec
does not settle are rejected by the model's choice (decision D21, log 21). -/
def Obligations.AssembleInvertsDisassemble : Prop :=
  (∀ i : Instr, i.wellFormed = true → assemble (disassemble i) = .ok i) ∧
  ∀ (l : AsmLine) (i : Instr), assemble l = .ok i → i.wellFormed = true ∧ disassemble i = l
end

