-- ==== Sys2Proof/Laws/State.lean ====
section
/-! SUPPORT. The small lemmas of the state's updates: one per field per update. -/

namespace Sys2Proof.Machine

variable (s : State) (i j : RegNum) (v : Dword)

@[simp] theorem State.setGpr_pc : (s.setGpr i v).pc = s.pc := rfl
@[simp] theorem State.setGpr_mem : (s.setGpr i v).mem = s.mem := rfl

/-- A register reads back what was written to it, r0 like every other. -/
@[simp] theorem State.gpr_setGpr_self : (s.setGpr i v).gpr i = v := by
  simp [State.gpr, State.setGpr]

theorem RegNum.toNat_ne {i j : RegNum} (h : j ≠ i) : i.toNat ≠ j.toNat :=
  fun e => h (BitVec.eq_of_toNat_eq e.symm)

/-- Writing a register leaves every other register alone. -/
theorem State.gpr_setGpr_ne {i j : RegNum} (h : j ≠ i) : (s.setGpr i v).gpr j = s.gpr j := by
  simp [State.gpr, State.setGpr, RegNum.toNat_ne h]

@[simp] theorem State.advance_pc : s.advance.pc = s.pc + 4#32 := rfl
@[simp] theorem State.advance_mem : s.advance.mem = s.mem := rfl
@[simp] theorem State.advance_gprs : s.advance.gprs = s.gprs := rfl
@[simp] theorem State.advance_gpr : s.advance.gpr i = s.gpr i := rfl

@[simp] theorem State.placeInstr_pc (w : Word) : (s.placeInstr w).pc = s.pc := rfl
@[simp] theorem State.placeInstr_gprs (w : Word) : (s.placeInstr w).gprs = s.gprs := rfl
@[simp] theorem State.placeInstr_mem (w : Word) : (s.placeInstr w).mem = s.mem.placeWord s.pc w := rfl

@[simp] theorem Launch.start_gprs (l : Launch) : l.start.gprs = l.gpr0 := rfl
@[simp] theorem Launch.start_pc (l : Launch) : l.start.pc = l.entryPc := rfl
@[simp] theorem Launch.start_mem (l : Launch) : l.start.mem = l.mem := rfl

/-- Two states are equal when their registers, pc and memory are: the complete state of R17. -/
theorem State.eq_of_fields {s t : State} (hg : s.gprs = t.gprs) (hp : s.pc = t.pc) (hm : s.mem = t.mem) : s = t := by
  cases s; cases t; simp_all

end Sys2Proof.Machine
end

