-- ==== Sys2Proof/Laws/Memory.lean ====
section
/-! SUPPORT. What the memory operations can do: reading after placing, the canonical form, and the read of a word. -/

namespace Sys2Proof.Machine

/-- A placed byte is read back, and every other address reads as before. -/
theorem Memory.lookup_insert (a x : Nat) (b : Byte) (cells : List Host.Cell) :
    Memory.lookup (Memory.insert a b cells) x = if x = a then some b else Memory.lookup cells x := by
  induction cells with
  | nil => simp only [Memory.insert, Memory.lookup, @eq_comm _ a x]
  | cons c rest ih =>
    obtain ⟨k, c⟩ := c
    simp only [Memory.insert]
    split
    · simp only [Memory.lookup, @eq_comm _ a x]
    · split
      · subst_vars
        by_cases h : x = k
        · simp [Memory.lookup, h]
        · simp [Memory.lookup, h, Ne.symm h]
      · by_cases h : x = a
        · subst h
          simp_all [Memory.lookup, eq_comm]
        · simp [Memory.lookup, ih, h]

theorem Memory.readByte_placeByte (m : Memory) (a : Addr) (b : Byte) (x : Nat) :
    (m.placeByte a b).readByte x = if x = a.toNat then some b else m.readByte x :=
  Memory.lookup_insert a.toNat x b m.cells

theorem Memory.risingFrom_mono {lo lo' : Nat} (h : lo' ≤ lo) {cells : List Host.Cell}
    (hw : Memory.risingFrom lo cells = true) : Memory.risingFrom lo' cells = true := by
  cases cells with
  | nil => rfl
  | cons c rest =>
    simp only [Memory.risingFrom, Bool.and_eq_true, decide_eq_true_eq] at hw ⊢
    exact ⟨⟨by omega, hw.1.2⟩, hw.2⟩

theorem Memory.risingFrom_insert {a lo : Nat} (b : Byte) (ha : a < 2 ^ 32) (hlo : lo ≤ a) {cells : List Host.Cell}
    (hw : Memory.risingFrom lo cells = true) : Memory.risingFrom lo (Memory.insert a b cells) = true := by
  induction cells generalizing lo with
  | nil => simp [Memory.insert, Memory.risingFrom]; omega
  | cons c rest ih =>
    obtain ⟨k, c⟩ := c
    simp only [Memory.risingFrom, Bool.and_eq_true, decide_eq_true_eq] at hw
    simp only [Memory.insert]
    split
    · simp only [Memory.risingFrom, Bool.and_eq_true, decide_eq_true_eq]
      exact ⟨⟨hlo, ha⟩, ⟨by omega, hw.1.2⟩, hw.2⟩
    · split
      · subst_vars
        simp only [Memory.risingFrom, Bool.and_eq_true, decide_eq_true_eq]
        exact hw
      · simp only [Memory.risingFrom, Bool.and_eq_true, decide_eq_true_eq]
        exact ⟨hw.1, ih (by omega) hw.2⟩

/-- Placing a byte keeps the canonical form. -/
theorem Memory.placeByte_wf {m : Memory} (h : m.wf = true) (a : Addr) (b : Byte) : (m.placeByte a b).wf = true :=
  Memory.risingFrom_insert b a.isLt (Nat.zero_le _) h

/-- Placing a word keeps the canonical form. -/
theorem Memory.placeWord_wf {m : Memory} (h : m.wf = true) (a : Addr) (w : Word) : (m.placeWord a w).wf = true :=
  placeByte_wf (placeByte_wf (placeByte_wf (placeByte_wf h _ _) _ _) _ _) _ _

/-- The memory at reset is in canonical form. -/
theorem State.reset_mem_wf : State.reset.mem.wf = true := rfl

/-- What the need of a byte gives, once: the byte, or the fault of an absent one. -/
theorem Memory.needByte_cases (m : Memory) (a : Addr) :
    (∃ b, m.readByte a.toNat = some b ∧ m.needByte a = .ok b) ∨
      (m.readByte a.toNat = none ∧ m.needByte a = .error (.fault (.memFault a))) := by
  cases h : m.readByte a.toNat with
  | none => exact .inr ⟨rfl, by simp [Memory.needByte, h, raiseMemFault]⟩
  | some b => exact .inl ⟨b, rfl, by simp [Memory.needByte, h]⟩

theorem toNat_add_offset {a : Addr} (h : a ≤ Config.topWord) {k : Nat} (hk : k < 4) :
    (a + BitVec.ofNat 32 k).toNat = a.toNat + k := by
  have : a.toNat ≤ 0xFFFFFFFC := h
  simp [BitVec.toNat_add]
  omega

/-- Everything the read of a word can do (R22, R24, R25): it is refused above 0xFFFF_FFFC, it gives the four bytes as
one word, or it faults at the lowest absent address. -/
theorem Memory.readWord_cases (m : Memory) (a : Addr) :
    (Config.topWord < a ∧ m.readWord a = .error (.refused .addressWrap)) ∨
    (∃ b0 b1 b2 b3, m.HoldsWord a b0 b1 b2 b3 ∧ m.readWord a = .ok (wordOfBytes b0 b1 b2 b3)) ∨
    (∃ j, m.FirstAbsent a j ∧ m.readWord a = .error (.fault (.memFault (a + BitVec.ofNat 32 j)))) := by
  by_cases ht : Config.topWord < a
  · exact .inl ⟨ht, by simp [Memory.readWord, ht, refuse]⟩
  refine .inr ?_
  have hle : a ≤ Config.topWord := BitVec.not_lt.mp ht
  have hnat : a.toNat ≤ 0xFFFFFFFC := hle
  have h1 : (a + 1#32).toNat = a.toNat + 1 := toNat_add_offset hle (k := 1) (by omega)
  have h2 : (a + 2#32).toNat = a.toNat + 2 := toNat_add_offset hle (k := 2) (by omega)
  have h3 : (a + 3#32).toNat = a.toNat + 3 := toNat_add_offset hle (k := 3) (by omega)
  obtain ⟨b0, r0, n0⟩ | ⟨r0, n0⟩ := m.needByte_cases a
  swap
  · exact .inr ⟨0, ⟨hnat, by omega, by simpa using r0, by simp⟩, by simp [Memory.readWord, ht, n0, bind, Except.bind]⟩
  obtain ⟨b1, r1, n1⟩ | ⟨r1, n1⟩ := m.needByte_cases (a + 1#32)
  swap
  · exact .inr ⟨1, ⟨hnat, by omega, by rw [← h1]; exact r1, fun k hk => by
      obtain rfl : k = 0 := by omega
      simp [r0]⟩, by simp [Memory.readWord, ht, n0, n1, bind, Except.bind]⟩
  obtain ⟨b2, r2, n2⟩ | ⟨r2, n2⟩ := m.needByte_cases (a + 2#32)
  swap
  · exact .inr ⟨2, ⟨hnat, by omega, by rw [← h2]; exact r2, fun k hk => by
      obtain rfl | rfl : k = 0 ∨ k = 1 := by omega
      · simp [r0]
      · rw [← h1, r1]; rfl⟩, by simp [Memory.readWord, ht, n0, n1, n2, bind, Except.bind]⟩
  obtain ⟨b3, r3, n3⟩ | ⟨r3, n3⟩ := m.needByte_cases (a + 3#32)
  swap
  · exact .inr ⟨3, ⟨hnat, by omega, by rw [← h3]; exact r3, fun k hk => by
      obtain rfl | rfl | rfl : k = 0 ∨ k = 1 ∨ k = 2 := by omega
      · simp [r0]
      · rw [← h1, r1]; rfl
      · rw [← h2, r2]; rfl⟩, by simp [Memory.readWord, ht, n0, n1, n2, n3, bind, Except.bind]⟩
  exact .inl ⟨b0, b1, b2, b3, ⟨hnat, r0, by rw [← h1]; exact r1, by rw [← h2]; exact r2, by rw [← h3]; exact r3⟩,
    by simp [Memory.readWord, ht, n0, n1, n2, n3, bind, Except.bind, pure, Except.pure]⟩

end Sys2Proof.Machine
end

