-- ==== Sys2Proof/Laws/Load.lean ====
section
/-! SUPPORT. What the shared operations of the loads and of the fetch can do, each said once. -/

namespace Sys2Proof.Machine

/-! ### How a computation settles -/

@[simp] theorem settle_eq_next {x : Except Stop State} {t : State} : settle x = .next t ↔ x = .ok t := by
  rcases x with (_ | _) | _ <;> simp [settle]

@[simp] theorem settle_eq_fault {x : Except Stop State} {f : Fault} : settle x = .fault f ↔ x = .error (.fault f) := by
  rcases x with (_ | _) | _ <;> simp [settle]

@[simp] theorem settle_eq_refused {x : Except Stop State} {r : Refusal} :
    settle x = .refused r ↔ x = .error (.refused r) := by
  rcases x with (_ | _) | _ <;> simp [settle]

/-! ### The loads -/

/-- The common load, once (R55): it writes the zero-extended word to `x[RT]`, or stops as the read stops. -/
theorem commonLoad_eq (rt : RegNum) (ea : Dword) (s : State) :
    commonLoad rt ea s = match s.mem.readWord (memAddress ea) with
      | .ok w => .ok (s.setGpr rt (zeroExtend64 w))
      | .error e => .error e := by
  unfold commonLoad
  cases s.mem.readWord (memAddress ea) <;> rfl

/-- A non-update load answers a next state just where the read does (R56, R58). -/
theorem plainLoad_ok {rt : RegNum} {ea : Dword} {s t : State} :
    plainLoad rt ea s = .ok t ↔
      ∃ w, s.mem.readWord (memAddress ea) = .ok w ∧ t = (s.setGpr rt (zeroExtend64 w)).advance := by
  unfold plainLoad
  rw [commonLoad_eq]
  cases s.mem.readWord (memAddress ea) <;> simp [bind, Except.bind, pure, Except.pure, eq_comm]

/-- A non-update load stops just as the read stops. -/
theorem plainLoad_error {rt : RegNum} {ea : Dword} {s : State} {e : Stop} :
    plainLoad rt ea s = .error e ↔ s.mem.readWord (memAddress ea) = .error e := by
  unfold plainLoad
  rw [commonLoad_eq]
  cases s.mem.readWord (memAddress ea) <;> simp [bind, Except.bind, pure, Except.pure]

/-- An update load answers a next state just where its form is valid and the read gives a word (R57, R59). -/
theorem updateLoad_ok {rt ra : RegNum} {ea : Dword} {s t : State} :
    updateLoad rt ra ea s = .ok t ↔
      updateFormOk rt ra = true ∧ ∃ w, s.mem.readWord (memAddress ea) = .ok w ∧
        t = ((s.setGpr rt (zeroExtend64 w)).setGpr ra (updateValue Config.writeback32 ea)).advance := by
  unfold updateLoad checkUpdateForm
  rw [commonLoad_eq]
  by_cases h : updateFormOk rt ra = true <;> cases s.mem.readWord (memAddress ea) <;>
    simp [h, refuse, bind, Except.bind, pure, Except.pure, eq_comm]

/-- An update load stops on an invalid form, and otherwise just as the read stops. -/
theorem updateLoad_error {rt ra : RegNum} {ea : Dword} {s : State} {e : Stop} :
    updateLoad rt ra ea s = .error e ↔
      (updateFormOk rt ra = false ∧ e = .refused .invalidForm) ∨
        (updateFormOk rt ra = true ∧ s.mem.readWord (memAddress ea) = .error e) := by
  unfold updateLoad checkUpdateForm
  rw [commonLoad_eq]
  cases h : updateFormOk rt ra <;> cases s.mem.readWord (memAddress ea) <;>
    simp [refuse, bind, Except.bind, pure, Except.pure, eq_comm]

theorem updateFormOk_iff {rt ra : RegNum} : updateFormOk rt ra = true ↔ ra ≠ 0#5 ∧ ra ≠ rt := by
  simp [updateFormOk]

/-- The write-back of this machine is the effective address itself (R57, decision D4). -/
@[simp] theorem updateValue_config (ea : Dword) : updateValue Config.writeback32 ea = ea := rfl

/-! ### The fetch -/

/-- Everything the pc tests can do (R12, R68). -/
theorem checkPc_cases (pc : Addr) :
    (pc.toNat % 4 ≠ 0 ∧ checkPc pc = .error (.refused .misalignedPc)) ∨
      (pc.toNat % 4 = 0 ∧ pc = Config.topWord ∧ checkPc pc = .error (.refused .pcWrap)) ∨
      (pc.toNat % 4 = 0 ∧ pc ≠ Config.topWord ∧ checkPc pc = .ok ()) := by
  unfold checkPc refuse
  by_cases h : pc.toNat % 4 = 0
  · by_cases h' : pc = Config.topWord
    · exact .inr (.inl ⟨h, h', by simp [h']; decide⟩)
    · exact .inr (.inr ⟨h, h', by simp [h, h']; rfl⟩)
  · exact .inl ⟨h, by simp [h]⟩

/-- The fetch gives an instruction just where the pc tests pass, the word is read and it decodes (R33, R68). -/
theorem fetchInstr_ok {s : State} {i : Instr} :
    fetchInstr s = .ok i ↔
      checkPc s.pc = .ok () ∧ ∃ w, s.mem.readWord s.pc = .ok w ∧ decode w = .ok i := by
  unfold fetchInstr fetchWord
  cases checkPc s.pc with
  | error e => simp [bind, Except.bind]
  | ok u =>
    cases s.mem.readWord s.pc with
    | error e => simp [bind, Except.bind]
    | ok w => cases h : decode w <;> simp [h, bind, Except.bind, pure, Except.pure, refuse]

/-- The fetch stops on the first test that fails: the pc, the read, the decoder (R68). -/
theorem fetchInstr_error {s : State} {e : Stop} :
    fetchInstr s = .error e ↔
      checkPc s.pc = .error e ∨
        (checkPc s.pc = .ok () ∧ (s.mem.readWord s.pc = .error e ∨
          ∃ w r, s.mem.readWord s.pc = .ok w ∧ decode w = .error r ∧ e = .refused .notInSpec)) := by
  unfold fetchInstr fetchWord
  cases checkPc s.pc with
  | error e => simp [bind, Except.bind]
  | ok u =>
    cases s.mem.readWord s.pc with
    | error e => simp [bind, Except.bind]
    | ok w => cases h : decode w <;> simp [h, bind, Except.bind, pure, Except.pure, refuse, eq_comm]

/-- What a step that answers a next state has done: fetched an instruction and run its meaning (R68). -/
theorem step_next {s t : State} (h : step s = .next t) : ∃ i, fetchInstr s = .ok i ∧ exec i s = .next t := by
  unfold step at h
  split at h
  · exact ⟨_, ‹_›, h⟩
  · simp at h

end Sys2Proof.Machine
end

