-- ==== Sys2Proof/Laws/PerInstr.lean ====
section
/-! SUPPORT. Families of facts about instructions as syntax, one lemma per constructor. -/

namespace Sys2Proof.Laws.WordLength

/-- An instruction is one 32-bit word: four bytes in memory (spec 30_encoding.md R40). -/
def Statement (i : Instr) : Prop :=
  (encodeBytes i).length = 4

theorem lwz (rt ra : RegNum) (d : Disp) : Statement (.lwz rt ra d) := rfl
theorem lwzu (rt ra : RegNum) (d : Disp) : Statement (.lwzu rt ra d) := rfl
theorem lwzx (rt ra rb : RegNum) : Statement (.lwzx rt ra rb) := rfl
theorem lwzux (rt ra rb : RegNum) : Statement (.lwzux rt ra rb) := rfl

end Sys2Proof.Laws.WordLength

namespace Sys2Proof.Laws.UpdateShape

open Sys2Proof.Machine

/-- An instruction writes its RT register, and its RA register as well just where it is an update form (R10). -/
def Statement (i : Instr) : Prop :=
  regsWritten i = i.rt :: (if i.isUpdate then [i.ra] else [])

theorem lwz (rt ra : RegNum) (d : Disp) : Statement (.lwz rt ra d) := rfl
theorem lwzu (rt ra : RegNum) (d : Disp) : Statement (.lwzu rt ra d) := rfl
theorem lwzx (rt ra rb : RegNum) : Statement (.lwzx rt ra rb) := rfl
theorem lwzux (rt ra rb : RegNum) : Statement (.lwzux rt ra rb) := rfl

end Sys2Proof.Laws.UpdateShape
end

