-- ==== Sys2Proof/Tests/Slice0.lean ====
section
/-! SUPPORT. Tests of the model against the vectors of spec 95_test_vectors.md (named in each docstring), the smoke test
of WellFormed, and a witness for each statement that has hypotheses. -/

namespace Sys2Proof.Tests

open Sys2Proof.Machine

/-! ### Helpers -/

/-- The data memory `M0` of 95_test_vectors.md section 3. -/
def m0 : Memory :=
  ⟨[(0x0, 0xFE#8), (0x1, 0xED#8), (0x2, 0xFA#8), (0x3, 0xCE#8), (0x4, 0x00#8), (0x5, 0xC0#8), (0x6, 0xFF#8), (0x7, 0xEE#8),
    (0x1000, 0x12#8), (0x1001, 0x34#8), (0x1002, 0x56#8), (0x1003, 0x78#8), (0x1004, 0x9A#8), (0x1005, 0xBC#8),
    (0x1006, 0xDE#8), (0x1007, 0xF0#8), (0x1008, 0x80#8), (0x1009, 0x00#8), (0x100A, 0x00#8), (0x100B, 0x01#8),
    (0x7FFF, 0xA1#8), (0x8000, 0xB2#8), (0x8001, 0xC3#8), (0x8002, 0xD4#8),
    (0xFFFF8000, 0x0B#8), (0xFFFF8001, 0xAD#8), (0xFFFF8002, 0xC0#8), (0xFFFF8003, 0xDE#8),
    (0xFFFFFFF0, 0xCA#8), (0xFFFFFFF1, 0xFE#8), (0xFFFFFFF2, 0xF0#8), (0xFFFFFFF3, 0x0D#8),
    (0xFFFFFFFC, 0xAA#8), (0xFFFFFFFD, 0xBB#8), (0xFFFFFFFE, 0xCC#8), (0xFFFFFFFF, 0xDD#8)]⟩

/-- A state over `M0` at pc 0x200 with some registers set. -/
def st (regs : List (RegNum × Dword)) : State :=
  regs.foldl (fun s r => s.setGpr r.1 r.2) { State.reset with pc := 0x200#32, mem := m0 }

/-- That state with an instruction word placed at its pc. -/
def at200 (w : Word) (regs : List (RegNum × Dword)) : State := (st regs).placeInstr w

def nextOf (o : Host.Outcome State Fault Refusal) : Option State :=
  match o with
  | .next s => some s
  | .fault _ => none
  | .refused _ => none

def stopOf (o : Host.Outcome State Fault Refusal) : Option Stop :=
  match o with
  | .next _ => none
  | .fault f => some (.fault f)
  | .refused r => some (.refused r)

/-- Two registers and the pc of the next state of a step. -/
def after (s : State) (a b : RegNum) : Option (Dword × Dword × Addr) :=
  (nextOf (step s)).map fun t => (t.gpr a, t.gpr b, t.pc)

/-! ### WellFormed: an ill-formed term for each check -/

theorem test_wellFormed_refuses_zero_base : (Instr.lwzu 3#5 0#5 0#16).wellFormed = false := by decide
theorem test_wellFormed_refuses_base_is_destination : (Instr.lwzu 5#5 5#5 8#16).wellFormed = false := by decide
theorem test_wellFormed_refuses_indexed_zero_base : (Instr.lwzux 6#5 0#5 8#5).wellFormed = false := by decide
theorem test_wellFormed_refuses_indexed_base_is_destination : (Instr.lwzux 7#5 7#5 8#5).wellFormed = false := by decide
/-- RB = RT is well-formed (R47). -/
theorem test_wellFormed_admits_index_is_destination : (Instr.lwzux 6#5 7#5 6#5).wellFormed = true := by decide

/-! ### Decoding: words written out from the encodings of 30_encoding.md -/

/-- K1: OPCD 100000, RT 00011, RA 00100, D 0000000000001000. -/
theorem test_decode_lwz : decode 0b10000000011001000000000000001000#32 = .ok (.lwz 3#5 4#5 8#16) := by decide
/-- K8: OPCD 100001, RT 00100, RA 00011, D 1111111111100000. -/
theorem test_decode_lwzu : decode 0b10000100100000111111111111100000#32 = .ok (.lwzu 4#5 3#5 0xFFE0#16) := by decide
/-- K10: OPCD 011111, RT 00011, RA 00100, RB 00101, XO 0000010111, Rc 0. -/
theorem test_decode_lwzx : decode 0b01111100011001000010100000101110#32 = .ok (.lwzx 3#5 4#5 5#5) := by decide
/-- K14: OPCD 011111, RT 00110, RA 00111, RB 01000, XO 0000110111, Rc 0. -/
theorem test_decode_lwzux : decode 0b01111100110001110100000001101110#32 = .ok (.lwzux 6#5 7#5 8#5) := by decide
/-- K26, K27, K28, K29: Rc = 1, an extended opcode and a primary opcode outside the table. -/
theorem test_decode_rejects : [0x7C64282F#32, 0x7CC7406F#32, 0x7C64282C#32, 0x88640008#32].map decode =
    List.replicate 4 (.error .notInSpec) := by decide
/-- K7, K9, K13, K17: encoding, with every field at its highest value among them. -/
theorem test_encode : [Instr.lwzu 9#5 10#5 4#16, .lwzu 31#5 30#5 0xFFFF#16, .lwzx 31#5 31#5 31#5, .lwzux 31#5 30#5 31#5].map
    encode = [0x852A0004#32, 0x87FEFFFF#32, 0x7FFFF82E#32, 0x7FFEF86E#32] := by decide
/-- K14 in memory order: 7C C7 40 6E. -/
theorem test_encodeBytes : encodeBytes (.lwzux 6#5 7#5 8#5) = [0x7C#8, 0xC7#8, 0x40#8, 0x6E#8] := by decide
theorem test_decodeBytes_short : decodeBytes [0x80#8, 0x64#8, 0x00#8] = .error .tooShort := by decide
/-- E1: the opcode words as the table numbers them. -/
theorem test_decodeTableWord : [0x80000000, 0x84000000, 0x7C00002E, 0x7C00006E].map (decodeTableWord 32) =
    [some (.lwz 0#5 0#5 0#16), some (.lwzu 0#5 0#5 0#16), some (.lwzx 0#5 0#5 0#5), some (.lwzux 0#5 0#5 0#5)] := by decide

/-! ### Execution: vectors of 95_test_vectors.md section 3 -/

/-- V7: RA0, r0 not read, negative displacement, the high address range. -/
theorem test_lwz_absolute : after (at200 0x80608000#32 [(0#5, 0x1234#64)]) 3#5 0#5 =
    some (0x0BADC0DE#64, 0x1234#64, 0x204#32) := by decide
/-- V4 and V9: unaligned by 3, no sign extension, the old high half cleared. -/
theorem test_lwz_unaligned : after (at200 0x80640003#32 [(4#5, 0x1000#64), (3#5, 0x5555555555555555#64)]) 3#5 4#5 =
    some (0x789ABCDE#64, 0x1000#64, 0x204#32) := by decide
/-- U2: the full 64-bit sum is written back. -/
theorem test_lwzu_writes_back_64_bits : after (at200 0x8483FFE0#32 [(3#5, 0x10#64)]) 4#5 3#5 =
    some (0xCAFEF00D#64, 0xFFFFFFFFFFFFFFF0#64, 0x204#32) := by decide
/-- U3: the carry out of bit 31 is kept. -/
theorem test_lwzu_keeps_carry : after (at200 0x852A0008#32 [(10#5, 0xFFFFFFFC#64)]) 9#5 10#5 =
    some (0x00C0FFEE#64, 0x100000004#64, 0x204#32) := by decide
/-- X3: all three fields equal. -/
theorem test_lwzx_all_fields_equal : after (at200 0x7C63182E#32 [(3#5, 0x800#64)]) 3#5 0#5 =
    some (0x12345678#64, 0#64, 0x204#32) := by decide
/-- X8: RA = 0 is the literal zero, RB = 0 reads r0. -/
theorem test_lwzx_index_r0 : after (at200 0x7C60002E#32 [(0#5, 0x1004#64)]) 3#5 0#5 =
    some (0x9ABCDEF0#64, 0x1004#64, 0x204#32) := by decide
/-- Y3: RB = RT, read before it is written. -/
theorem test_lwzux_index_is_destination : after (at200 0x7CC7306E#32 [(7#5, 0x1000#64), (6#5, 4#64)]) 6#5 7#5 =
    some (0x9ABCDEF0#64, 0x1004#64, 0x204#32) := by decide
/-- Y5: the carry out of bit 31 is kept. -/
theorem test_lwzux_keeps_carry : after (at200 0x7CC7406E#32 [(7#5, 0xFFFFFFFF#64), (8#5, 0x1001#64)]) 6#5 7#5 =
    some (0x12345678#64, 0x100001000#64, 0x204#32) := by decide
/-- V12, V16, U5, Y7, X7: the stops of the loads. -/
theorem test_stops : [at200 0x8064FFFE#32 [], at200 0x8064000A#32 [(4#5, 0x1000#64)], at200 0x84600000#32 [],
    at200 0x7CE7406E#32 [(7#5, 0x1000#64)], at200 0x7C64282F#32 [(4#5, 0x1000#64), (5#5, 4#64)]].map (fun s => stopOf (step s)) =
    [some (.refused .addressWrap), some (.fault (.memFault 0x100C#32)), some (.refused .invalidForm),
     some (.refused .invalidForm), some (.refused .notInSpec)] := by decide
/-- F1, F2, F3: the stops of the fetch. -/
theorem test_fetch_stops : [0x102#32, 0xFFFFFFFC#32, 0x2000#32].map (fun p => stopOf (step { st [] with pc := p })) =
    [some (.refused .misalignedPc), some (.refused .pcWrap), some (.fault (.memFault 0x2000#32))] := by decide
/-- F4: data and code share one memory and one byte order. -/
theorem test_fetch_from_data : after { st [] with pc := 0x1008#32 } 0#5 1#5 = some (0xEDFACE00#64, 0#64, 0x100C#32) := by decide

/-! ### Launches and runs -/

/-- The launch of P5: a program whose second word is an invalid form. -/
def p5 : Launch where
  gpr0 := (st [(3#5, 0x1000#64), (0#5, 0x1000#64), (5#5, 5#64)]).gprs
  entryPc := 0x500#32
  endPc := 0x50C#32
  mem := ((m0.placeWord 0x500#32 0x80830000#32).placeWord 0x504#32 0x84600000#32).placeWord 0x508#32 0x80A30000#32

/-- P5: the run stops at its second word, the state kept. -/
theorem test_run_stops : (match p5.run with
    | .stopped why s => some (why, s.pc, s.gpr 4#5, s.gpr 5#5)
    | .final _ => none
    | .unfinished _ => none) = some (.refused .invalidForm, 0x504#32, 0x12345678#64, 5#64) := by decide

/-- P5 cut after its first word reaches its end. -/
theorem test_run_ends : { p5 with endPc := 0x504#32 }.safe = true := by decide

theorem test_m0_wf : m0.wf = true := by decide

/-! ### Assembler lines -/

/-- K2 and K11 as 95_test_vectors.md section 2 writes them. -/
theorem test_spell : [Instr.lwz 3#5 1#5 0xFFFC#16, .lwzx 3#5 0#5 5#5].map (fun i => (disassemble i).spell) =
    ["lwz r3, -4(r1)", "lwzx r3, 0, r5"] := by decide
/-- E4: an assembler refuses `lwzu r3, 0(0)`; and 0x8000 as a number is out of range (R51). -/
theorem test_assemble_rejects : [AsmLine.displacement .lwzu 3#5 0 .zero, .displacement .lwz 3#5 0x8000 .zero].map assemble =
    [.error .invalidForm, .error .displacementRange] := by decide

/-! ### Witnesses: for each statement with hypotheses, a state and operands that meet them -/

theorem witness_DecodedWordsReencode : decode 0x7CC7406E#32 = .ok (.lwzux 6#5 7#5 8#5) := by decide

/-- Each mask clause at the ends of its range, and words that match no row next to them. -/
theorem witness_DecodeFollowsMatchAndMask :
    (0x83FFFFFF#32 &&& 0xFC000000#32 = 0x80000000#32 ∧ 0x84000000#32 &&& 0xFC000000#32 = 0x84000000#32) ∧
    (0x7FFFF82E#32 &&& 0xFC0007FF#32 = 0x7C00002E#32 ∧ 0x7C00006E#32 &&& 0xFC0007FF#32 = 0x7C00006E#32) ∧
    (0x88000000#32 &&& 0xFC000000#32 ≠ 0x80000000#32 ∧ 0x88000000#32 &&& 0xFC000000#32 ≠ 0x84000000#32 ∧
      0x88000000#32 &&& 0xFC0007FF#32 ≠ 0x7C00002E#32 ∧ 0x88000000#32 &&& 0xFC0007FF#32 ≠ 0x7C00006E#32) := by decide

/-- V11: the last word of memory, at the boundary address 0xFFFF_FFFC. -/
theorem witness_LwzLoadsWordAndCompletes : (st []).mem.HoldsWord
    (((if 4#5 = 0#5 then 0#64 else (st []).gpr 4#5) + (0xFFFC#16).signExtend 64).setWidth 32) 0xAA#8 0xBB#8 0xCC#8 0xDD#8 := by decide
theorem witness_LwzuLoadsUpdatesAndCompletes : 3#5 ≠ 0#5 ∧ 3#5 ≠ 4#5 ∧ (st [(3#5, 0x10#64)]).mem.HoldsWord
    (((st [(3#5, 0x10#64)]).gpr 3#5 + (0xFFE0#16).signExtend 64).setWidth 32) 0xCA#8 0xFE#8 0xF0#8 0x0D#8 := by decide
theorem witness_LwzxLoadsWordAndCompletes : (st [(5#5, 0x1001#64)]).mem.HoldsWord
    (((if 0#5 = 0#5 then 0#64 else (st [(5#5, 0x1001#64)]).gpr 0#5) + (st [(5#5, 0x1001#64)]).gpr 5#5).setWidth 32)
    0x34#8 0x56#8 0x78#8 0x9A#8 := by decide
theorem witness_LwzuxLoadsUpdatesAndCompletes : 7#5 ≠ 0#5 ∧ 7#5 ≠ 6#5 ∧ (st [(7#5, 0x800#64)]).mem.HoldsWord
    (((st [(7#5, 0x800#64)]).gpr 7#5 + (st [(7#5, 0x800#64)]).gpr 7#5).setWidth 32) 0x12#8 0x34#8 0x56#8 0x78#8 := by decide

/-- Both clauses: the bytes at each of the three misalignments and at the last aligned word of memory, and the read. -/
theorem witness_LoadsCompleteAtEveryAlignment :
    (∀ d : Disp, (Instr.lwz 3#5 4#5 d).wellFormed = true) ∧
    (st [(4#5, 0x1000#64)]).mem.HoldsWord
      ((effectiveAddressOf (.lwz 3#5 4#5 1#16) (st [(4#5, 0x1000#64)])).setWidth 32) 0x34#8 0x56#8 0x78#8 0x9A#8 ∧
    (st [(4#5, 0x1000#64)]).mem.HoldsWord
      ((effectiveAddressOf (.lwz 3#5 4#5 2#16) (st [(4#5, 0x1000#64)])).setWidth 32) 0x56#8 0x78#8 0x9A#8 0xBC#8 ∧
    (st [(4#5, 0x1000#64)]).mem.HoldsWord
      ((effectiveAddressOf (.lwz 3#5 4#5 3#16) (st [(4#5, 0x1000#64)])).setWidth 32) 0x78#8 0x9A#8 0xBC#8 0xDE#8 ∧
    (st []).mem.HoldsWord
      ((effectiveAddressOf (.lwz 3#5 4#5 0xFFFC#16) (st [])).setWidth 32) 0xAA#8 0xBB#8 0xCC#8 0xDD#8 ∧
    (st [(4#5, 0x1000#64)]).mem.readWord (memAddress (effectiveAddressOf (.lwz 3#5 4#5 1#16) (st [(4#5, 0x1000#64)]))) =
      .ok 0x3456789A#32 :=
  ⟨fun _ => rfl, by decide, by decide, by decide, by decide, by decide⟩

/-- For the statements about a next state of `exec`: each instruction has one. -/
theorem witness_exec_next : [Instr.lwz 3#5 4#5 0#16, .lwzu 3#5 4#5 0#16, .lwzx 3#5 4#5 0#5, .lwzux 3#5 4#5 0#5].all
    (fun i => (nextOf (exec i (st [(4#5, 0x1000#64)]))).isSome) = true := by decide
theorem witness_OnlyDestinationsAndPcChange : ∃ t, exec (.lwzu 3#5 4#5 0#16) (st [(4#5, 0x1000#64)]) = .next t := ⟨_, rfl⟩
theorem witness_CompletedInstructionsAdvancePcByFour : ∃ t, step (at200 0x80640000#32 [(4#5, 0x1000#64)]) = .next t := ⟨_, rfl⟩
theorem witness_AddressingModesKeepOrReplaceBase :
    ∃ t, exec (.lwzux 3#5 4#5 0#5) (st [(4#5, 0x1000#64)]) = .next t := ⟨_, rfl⟩

/-- The four reads of the RA0 statement: RA = 0 with a displacement and with an index, RA = 4 with each. -/
theorem witness_ZeroBaseIsLiteralZeroNotR0 :
    m0.readWord (memAddress ((0x8000#16).signExtend 64)) = .ok 0x0BADC0DE#32 ∧
    m0.readWord (memAddress ((st [(0#5, 0x1004#64)]).gpr 0#5)) = .ok 0x9ABCDEF0#32 ∧
    m0.readWord (memAddress ((st [(4#5, 0x1000#64)]).gpr 4#5 + (4#16).signExtend 64)) = .ok 0x9ABCDEF0#32 ∧
    m0.readWord (memAddress ((st [(4#5, 0x800#64)]).gpr 4#5 + (st [(4#5, 0x800#64)]).gpr 4#5)) = .ok 0x12345678#32 := by decide

/-- Two states that differ in registers the instruction does not read; a completing, a faulting and a refused case. -/
theorem witness_RegisterEffectsTable :
    (∀ r ∈ regsRead (.lwz 3#5 4#5 0#16), (st [(4#5, 0x1000#64), (9#5, 7#64)]).gpr r = (st [(4#5, 0x1000#64)]).gpr r) ∧
    (nextOf (exec (.lwz 3#5 4#5 0#16) (st [(4#5, 0x1000#64)]))).isSome = true ∧
    stopOf (exec (.lwz 3#5 4#5 0x4000#16) (st [(4#5, 0x1000#64)])) = some (.fault (.memFault 0x5000#32)) ∧
    stopOf (exec (.lwzu 4#5 4#5 0#16) (st [(4#5, 0x1000#64)])) = some (.refused .invalidForm) := by decide

/-- A memory of the four bytes alone agrees with `M0` on them. -/
theorem witness_OutcomeDependsOnFourBytesOnly :
    ∀ k < 4, ((⟨[]⟩ : Memory).placeWord 0x1000#32 0x12345678#32).readByte
        ((memAddress (effectiveAddressOf (.lwz 3#5 4#5 0#16) (st [(4#5, 0x1000#64)]))).toNat + k) =
      (st [(4#5, 0x1000#64)]).mem.readByte
        ((memAddress (effectiveAddressOf (.lwz 3#5 4#5 0#16) (st [(4#5, 0x1000#64)]))).toNat + k) := by decide

/-- V8: two bases that differ in their high halves. -/
theorem witness_HighHalfOfAddressIsIgnored :
    (effectiveAddressOf (.lwz 3#5 4#5 0#16) (st [(4#5, 0xABCDEF0100001000#64)])).setWidth 32 =
      (effectiveAddressOf (.lwz 3#5 4#5 0#16) (st [(4#5, 0x1000#64)])).setWidth 32 := by decide

/-- The first address above the top word. -/
theorem witness_AccessPastTopIsRefused : (Instr.lwz 3#5 0#5 0xFFFD#16).wellFormed = true ∧
    0xFFFFFFFC < (effectiveAddressOf (.lwz 3#5 0#5 0xFFFD#16) (st [])).toNat % 2 ^ 32 := by decide

/-- The first byte absent (offset 0), and only the last (V16 moved to offset 3). -/
theorem witness_AbsentByteFaultsAtLowestAddress :
    (st []).mem.FirstAbsent (memAddress (effectiveAddressOf (.lwz 3#5 0#5 0x5000#16) (st []))) 0 ∧
    (st []).mem.FirstAbsent (memAddress (effectiveAddressOf (.lwz 3#5 0#5 0x1009#16) (st []))) 3 := by decide

/-- A fault of the fetch and a fault of the data access. -/
theorem witness_FaultsNameAbsentBytes :
    stopOf (step (st [])) = some (.fault (.memFault 0x200#32)) ∧
    stopOf (step (at200 0x80605000#32 [])) = some (.fault (.memFault 0x5000#32)) := by decide

/-- One refusal of each reason. -/
theorem witness_RefusalsAreTheClosedList :
    [{ st [] with pc := 0x201#32 }, { st [] with pc := 0xFFFFFFFC#32 }, at200 0#32 [], at200 0x84000000#32 [],
      at200 0x8060FFFD#32 []].map (fun s => stopOf (step s)) =
    [some (.refused .misalignedPc), some (.refused .pcWrap), some (.refused .notInSpec), some (.refused .invalidForm),
      some (.refused .addressWrap)] := by decide

theorem witness_WordsOutsideTableAreRefused :
    (0x200#32).toNat % 4 = 0 ∧ 0x200#32 ≠ 0xFFFFFFFC#32 ∧
    (at200 0x7C64282F#32 []).mem.HoldsWord 0x200#32 0x7C#8 0x64#8 0x28#8 0x2F#8 ∧
    (0x7C#8 ++ 0x64#8 ++ 0x28#8 ++ 0x2F#8) &&& 0xFC000000#32 ≠ 0x80000000#32 ∧
    (0x7C#8 ++ 0x64#8 ++ 0x28#8 ++ 0x2F#8) &&& 0xFC000000#32 ≠ 0x84000000#32 ∧
    (0x7C#8 ++ 0x64#8 ++ 0x28#8 ++ 0x2F#8) &&& 0xFC0007FF#32 ≠ 0x7C00002E#32 ∧
    (0x7C#8 ++ 0x64#8 ++ 0x28#8 ++ 0x2F#8) &&& 0xFC0007FF#32 ≠ 0x7C00006E#32 := by decide

/-- The last pc a step may fetch at, 0xFFFF_FFF8. -/
theorem witness_StepRunsDecodedInstruction :
    (0xFFFFFFF8#32).toNat % 4 = 0 ∧ 0xFFFFFFF8#32 ≠ 0xFFFFFFFC#32 ∧
    ({ st [] with pc := 0xFFFFFFF8#32 }.placeInstr 0x80640008#32).mem.HoldsWord 0xFFFFFFF8#32 0x80#8 0x64#8 0x00#8 0x08#8 ∧
    decode (0x80#8 ++ 0x64#8 ++ 0x00#8 ++ 0x08#8) = .ok (.lwz 3#5 4#5 8#16) := by decide

theorem witness_PlacedInstructionRunsNext : State.reset.pc.toNat % 4 = 0 ∧ State.reset.pc ≠ 0xFFFFFFFC#32 := by decide

/-- Each clause of the order: the run end; then, away from it, a misaligned pc, the top pc, an absent instruction byte, a
word outside the table, an invalid form, an address past the top, an absent data byte, and a load that completes. -/
theorem witness_StepTestsInOrder :
    (st []).pc = 0x200#32 ∧ ((0x202#32).toNat % 4 ≠ 0 ∧ 0x202#32 ≠ 0x200#32) ∧ 0xFFFFFFFC#32 ≠ 0x200#32 ∧
    (st []).mem.FirstAbsent 0x200#32 0 ∧
    (at200 0#32 []).mem.HoldsWord 0x200#32 0#8 0#8 0#8 0#8 ∧ decode (0#8 ++ 0#8 ++ 0#8 ++ 0#8) = .error .notInSpec ∧
    decode (0x84#8 ++ 0#8 ++ 0#8 ++ 0#8) = .ok (.lwzu 0#5 0#5 0#16) ∧ (Instr.lwzu 0#5 0#5 0#16).wellFormed = false ∧
    0xFFFFFFFC < (effectiveAddressOf (.lwz 3#5 0#5 0xFFFD#16) (st [])).toNat % 2 ^ 32 ∧
    (st []).mem.FirstAbsent (memAddress (effectiveAddressOf (.lwz 3#5 0#5 0x100A#16) (st []))) 2 ∧
    (st []).mem.HoldsWord (memAddress (effectiveAddressOf (.lwz 3#5 0#5 0xFFFC#16) (st []))) 0xAA#8 0xBB#8 0xCC#8 0xDD#8 := by decide

/-- The lowest misaligned pc and a step that completes from the last pc that may. -/
theorem witness_PcIsAlignedAndNeverWraps :
    stopOf (step { st [] with pc := 1#32 }) = some (.refused .misalignedPc) ∧
    after ({ st [] with pc := 0xFFFFFFF8#32 }.placeInstr 0x80601000#32) 3#5 0#5 =
      some (0x12345678#64, 0#64, 0xFFFFFFFC#32) := by decide

theorem witness_StepAndRunKeepInvariant : (at200 0x80601000#32 []).Inv ∧
    (nextOf (step (at200 0x80601000#32 []))).isSome = true := by decide

/-- The last word of memory, and a byte placed just below it; a word at 0x1000 and bytes just below and just above it. -/
theorem witness_WordReadIsBigEndian :
    m0.HoldsWord 0xFFFFFFFC#32 0xAA#8 0xBB#8 0xCC#8 0xDD#8 ∧ (0xFFFFFFFB#32).toNat < (0xFFFFFFFC#32).toNat ∧
    m0.HoldsWord 0x1000#32 0x12#8 0x34#8 0x56#8 0x78#8 ∧ (0x1000#32).toNat + 3 < (0x1004#32).toNat := by decide

theorem witness_MemoryIsConstantOverRuns : (nextOf (step (at200 0x80601000#32 []))).isSome = true := by decide

/-- A run of three words to 0x20C, and one of none; a launch that is admitted. -/
theorem witness_RunReachesEndAfterExactlyItsWordsOrStops :
    (0x20C#32).toNat = (st []).pc.toNat + 4 * 3 ∧ (0x200#32).toNat = (st []).pc.toNat + 4 * 0 ∧ p5.wf = true := by decide

theorem witness_StopsArePreciseAndTerminal :
    run 0x20C#32 3 (st []) = .stopped (.fault (.memFault 0x200#32)) (st []) := by decide

/-- A launch whose only word loads from an absent address. -/
def absentLoad : Launch where
  gpr0 := (st []).gprs
  entryPc := 0x500#32
  endPc := 0x504#32
  mem := m0.placeWord 0x500#32 0x80605000#32

theorem witness_AdmittedLaunchFaultsOnlyOutsideItsText : absentLoad.wf = true ∧
    absentLoad.run = .stopped (.fault (.memFault 0x5000#32)) absentLoad.start := by decide

theorem witness_AssembleInvertsDisassemble : (Instr.lwzu 9#5 10#5 0x8000#16).wellFormed = true ∧
    assemble (.displacement .lwzu 9#5 (-32768) (.reg 10#5)) = .ok (.lwzu 9#5 10#5 0x8000#16) := by decide

end Sys2Proof.Tests
end

section
/-! SUPPORT. The RA0 base rule (spec 10_state.md R11) and the completion of the non-update loads over it. -/

namespace Sys2Proof.Machine

/-! ### The operands -/

/-- Register number 0 as an RA0 base is the literal zero: the state's r0 is not read (R11). -/
@[simp] theorem State.baseRA0_zero (s : State) : s.baseRA0 0#5 = 0#64 := by
  simp [State.baseRA0]

/-- Every other register number as an RA0 base is the register itself (R11). -/
theorem State.baseRA0_of_ne_zero {ra : RegNum} (h : ra ≠ 0#5) (s : State) : s.baseRA0 ra = s.gpr ra := by
  simp [State.baseRA0, h]

theorem zeroExtend64_eq_setWidth (w : Word) : zeroExtend64 w = w.setWidth 64 :=
  (BitVec.setWidth_eq_append (by decide)).symm

/-- No update form has RA = 0, whatever its destination (R47). -/
@[simp] theorem updateFormOk_zero_base (rt : RegNum) : updateFormOk rt 0#5 = false := by
  simp [updateFormOk]

/-! ### The non-update loads -/

theorem exec_lwz (rt ra : RegNum) (d : Disp) (s : State) :
    exec (.lwz rt ra d) s = settle (plainLoad rt (s.baseRA0 ra + d.signExtend 64) s) := rfl

theorem exec_lwzx (rt ra rb : RegNum) (s : State) :
    exec (.lwzx rt ra rb) s = settle (plainLoad rt (s.baseRA0 ra + s.gpr rb) s) := rfl

/-- A non-update load whose word is present completes, with the zero-extended word in `x[RT]`, r0 included. -/
theorem plainLoad_completes {rt : RegNum} {ea : Dword} {s : State} {w : Word}
    (hw : s.mem.readWord (memAddress ea) = .ok w) :
    ∃ t, settle (plainLoad rt ea s) = .next t ∧ t.gpr rt = w.setWidth 64 :=
  ⟨_, settle_eq_next.mpr (plainLoad_ok.mpr ⟨w, hw, rfl⟩), by simp [zeroExtend64_eq_setWidth]⟩

end Sys2Proof.Machine
end

section
/-! PROOF of O15. Each read is one completion of `plainLoad`, at the address its base gives; the two cases of the base
are the two cases of R11. -/

open Sys2Proof Sys2Proof.Machine

/-- Settles O15, by the two cases of the RA0 base for `lwz` and for `lwzx`, and by R47 for the update forms. -/
theorem zeroBaseIsLiteralZeroNotR0 : Obligations.ZeroBaseIsLiteralZeroNotR0 := by
  refine ⟨fun rt d s w hw => ?lwzZero, fun rt rb s w hw => ?lwzxZero, fun rt ra d s w hra hw => ?lwzReg,
    fun rt ra rb s w hra hw => ?lwzxReg, fun rt rb d => ?updateForms⟩
  case lwzZero =>
    rw [exec_lwz, State.baseRA0_zero, BitVec.zero_add]
    exact plainLoad_completes hw
  case lwzxZero =>
    rw [exec_lwzx, State.baseRA0_zero, BitVec.zero_add]
    exact plainLoad_completes hw
  case lwzReg =>
    rw [exec_lwz, State.baseRA0_of_ne_zero hra]
    exact plainLoad_completes hw
  case lwzxReg =>
    rw [exec_lwzx, State.baseRA0_of_ne_zero hra]
    exact plainLoad_completes hw
  case updateForms => exact ⟨updateFormOk_zero_base rt, updateFormOk_zero_base rt⟩

end

section
/-! SUPPORT. The fields of an instruction word (spec 30_encoding.md R41, R42): a form's word is the sum of its placed
fields, and a field is read back from a sum by dividing away what lies below it and discarding what lies above. -/

namespace Sys2Proof

/-! ### A field of a sum -/

/-- Concatenation is a sum: the low part keeps its value, the high part is placed above its `n` bits. -/
theorem toNat_append_eq_add {m n : Nat} (x : BitVec m) (y : BitVec n) :
    (x ++ y).toNat = x.toNat * 2 ^ n + y.toNat := by
  rw [BitVec.toNat_append, ← Nat.shiftLeft_add_eq_or_of_lt y.isLt, Nat.shiftLeft_eq]

/-- IBM bit `a` has `32 - a - n` bits below an `n`-bit field that begins there (R4). -/
theorem toNat_ibmField (a n : Nat) (w : Word) : (ibmField a n w).toNat = w.toNat / 2 ^ (32 - a - n) % 2 ^ n := by
  rw [ibmField, BitVec.extractLsb'_toNat, Nat.shiftRight_eq_div_pow]

/-- The field at IBM bits `a` to `a + n - 1` is the `f` placed there, whatever `hi` lies above it and `lo` below it. -/
theorem ibmField_eq_of_placed {a n : Nat} {w : Word} {f : BitVec n} (hi lo : Nat) (hlo : lo < 2 ^ (32 - a - n))
    (hw : w.toNat = (hi * 2 ^ n + f.toNat) * 2 ^ (32 - a - n) + lo) : ibmField a n w = f := by
  have hquot : w.toNat / 2 ^ (32 - a - n) = hi * 2 ^ n + f.toNat := by
    rw [hw, Nat.mul_comm, Nat.mul_add_div (Nat.two_pow_pos _), Nat.div_eq_of_lt hlo, Nat.add_zero]
  have hmod : (hi * 2 ^ n + f.toNat) % 2 ^ n = f.toNat := by
    rw [Nat.mul_comm, Nat.mul_add_mod, Nat.mod_eq_of_lt f.isLt]
  exact BitVec.eq_of_toNat_eq (by rw [toNat_ibmField, hquot, hmod])

/-! ### Form D -/

section FormD

variable (opcd : BitVec 6) (rt ra : RegNum) (d : Disp)

theorem toNat_encodeD : (encodeD opcd rt ra d).toNat =
    opcd.toNat * 2 ^ 26 + rt.toNat * 2 ^ 21 + ra.toNat * 2 ^ 16 + d.toNat := by
  simp only [encodeD, toNat_append_eq_add]
  omega

@[simp] theorem opcd_encodeD : ibmField 0 6 (encodeD opcd rt ra d) = opcd :=
  ibmField_eq_of_placed 0 (rt.toNat * 2 ^ 21 + ra.toNat * 2 ^ 16 + d.toNat) (by omega)
    (by rw [toNat_encodeD]; omega)

@[simp] theorem fieldRT_encodeD : fieldRT (encodeD opcd rt ra d) = rt :=
  ibmField_eq_of_placed opcd.toNat (ra.toNat * 2 ^ 16 + d.toNat) (by omega)
    (by rw [toNat_encodeD]; omega)

@[simp] theorem fieldRA_encodeD : fieldRA (encodeD opcd rt ra d) = ra :=
  ibmField_eq_of_placed (opcd.toNat * 2 ^ 5 + rt.toNat) d.toNat (by omega)
    (by rw [toNat_encodeD]; omega)

@[simp] theorem fieldD_encodeD : fieldD (encodeD opcd rt ra d) = d :=
  ibmField_eq_of_placed (opcd.toNat * 2 ^ 10 + rt.toNat * 2 ^ 5 + ra.toNat) 0 (by omega)
    (by rw [toNat_encodeD]; omega)

end FormD

/-! ### Form X -/

section FormX

variable (opcd : BitVec 6) (rt ra rb : RegNum) (xo : BitVec 10) (rc : BitVec 1)

theorem toNat_encodeX : (encodeX opcd rt ra rb xo rc).toNat =
    opcd.toNat * 2 ^ 26 + rt.toNat * 2 ^ 21 + ra.toNat * 2 ^ 16 + rb.toNat * 2 ^ 11 + xo.toNat * 2 + rc.toNat := by
  simp only [encodeX, toNat_append_eq_add]
  omega

@[simp] theorem opcd_encodeX : ibmField 0 6 (encodeX opcd rt ra rb xo rc) = opcd :=
  ibmField_eq_of_placed 0
    (rt.toNat * 2 ^ 21 + ra.toNat * 2 ^ 16 + rb.toNat * 2 ^ 11 + xo.toNat * 2 + rc.toNat) (by omega)
    (by rw [toNat_encodeX]; omega)

@[simp] theorem fieldRT_encodeX : fieldRT (encodeX opcd rt ra rb xo rc) = rt :=
  ibmField_eq_of_placed opcd.toNat
    (ra.toNat * 2 ^ 16 + rb.toNat * 2 ^ 11 + xo.toNat * 2 + rc.toNat) (by omega)
    (by rw [toNat_encodeX]; omega)

@[simp] theorem fieldRA_encodeX : fieldRA (encodeX opcd rt ra rb xo rc) = ra :=
  ibmField_eq_of_placed (opcd.toNat * 2 ^ 5 + rt.toNat)
    (rb.toNat * 2 ^ 11 + xo.toNat * 2 + rc.toNat) (by omega)
    (by rw [toNat_encodeX]; omega)

@[simp] theorem fieldRB_encodeX : fieldRB (encodeX opcd rt ra rb xo rc) = rb :=
  ibmField_eq_of_placed (opcd.toNat * 2 ^ 10 + rt.toNat * 2 ^ 5 + ra.toNat)
    (xo.toNat * 2 + rc.toNat) (by omega)
    (by rw [toNat_encodeX]; omega)

@[simp] theorem xo_encodeX : ibmField 21 10 (encodeX opcd rt ra rb xo rc) = xo :=
  ibmField_eq_of_placed (opcd.toNat * 2 ^ 15 + rt.toNat * 2 ^ 10 + ra.toNat * 2 ^ 5 + rb.toNat) rc.toNat (by omega)
    (by rw [toNat_encodeX]; omega)

@[simp] theorem rc_encodeX : ibmField 31 1 (encodeX opcd rt ra rb xo rc) = rc :=
  ibmField_eq_of_placed
    (opcd.toNat * 2 ^ 25 + rt.toNat * 2 ^ 20 + ra.toNat * 2 ^ 15 + rb.toNat * 2 ^ 10 + xo.toNat) 0 (by omega)
    (by rw [toNat_encodeX]; omega)

end FormX

end Sys2Proof

namespace Sys2Proof.Machine

/-! ### The displacement -/

/-- Sign extension to 64 bits keeps the two's-complement value (R43). -/
@[simp] theorem toInt_extS (d : Disp) : (extS d).toInt = d.toInt :=
  BitVec.toInt_signExtend_of_le (by decide)

end Sys2Proof.Machine
end

section
/-! PROOF of O4, O5 and O34. The placed sums and the fields read back from them are the lemmas of the two forms; the
opcodes of the four instructions are special cases of them. -/

open Sys2Proof Sys2Proof.Machine

/-- Settles O4, form by form, from the sum of the form and the field placed at each of its IBM positions. -/
theorem formWordsArePlacedFieldSums : Obligations.FormWordsArePlacedFieldSums := by
  refine ⟨fun opcd rt ra d => ?formD, fun opcd rt ra rb xo rc => ?formX⟩
  case formD =>
    exact ⟨toNat_encodeD .., opcd_encodeD .., fieldRT_encodeD .., fieldRA_encodeD .., fieldD_encodeD ..⟩
  case formX =>
    exact ⟨toNat_encodeX .., opcd_encodeX .., fieldRT_encodeX .., fieldRA_encodeX .., fieldRB_encodeX ..,
      xo_encodeX .., rc_encodeX ..⟩

/-- Settles O5: `encode` gives each instruction its form with the opcodes of R45, which the form's fields give back; the
four opcode words are closed. -/
theorem opcodesSelectTheFourInstructions : Obligations.OpcodesSelectTheFourInstructions := by
  refine ⟨fun rt ra d => ?formD, fun rt ra rb => ?formX, ?opcodeWords⟩
  case formD => exact ⟨opcd_encodeD .., opcd_encodeD ..⟩
  case formX => exact ⟨opcd_encodeX .., xo_encodeX .., opcd_encodeX .., xo_encodeX ..⟩
  case opcodeWords => decide

/-- Settles O34, by the value of `extS` and the range of 16-bit two's complement; the rule's examples are closed. -/
theorem displacementIsSignExtended : Obligations.DisplacementIsSignExtended := by
  refine ⟨fun d => ⟨toInt_extS d, ?atLeast, ?atMost⟩, ?examples⟩
  case atLeast => exact BitVec.le_toInt d
  case atMost => exact Int.le_of_lt_add_one (BitVec.toInt_lt (x := d))
  case examples => decide

end

section
/-! SUPPORT. What a completed instruction leaves unchanged (spec 40_load_word_and_zero.md R60, R62): one frame per state
update, composed into the frame of each shared load and of `exec`. -/

namespace Sys2Proof.Machine

/-! ### Frames of the state's updates -/

theorem onlyChanges_setGpr (s : State) (i : RegNum) (v : Dword) : OnlyChanges [i] s (s.setGpr i v) :=
  fun _ hr => State.gpr_setGpr_ne s v (List.ne_of_not_mem_cons hr)

theorem OnlyChanges.trans {rs qs : List RegNum} {s t u : State} (hst : OnlyChanges rs s t) (htu : OnlyChanges qs t u) :
    OnlyChanges (rs ++ qs) s u := fun r hr => by
  rw [List.mem_append, not_or] at hr
  obtain ⟨hrs, hqs⟩ := hr
  exact (htu r hqs).trans (hst r hrs)

theorem sameBytes_of_mem_eq {s t : State} (h : t.mem = s.mem) : SameBytes s t := fun _ => by rw [h]

/-! ### Frames of the loads -/

/-- What completing with destinations `rs` means for the state (R60, R62): other registers and the memory stay, and
execution goes on at the next word. -/
structure CompletesWith (rs : List RegNum) (s t : State) : Prop where
  regs : OnlyChanges rs s t
  mem : t.mem = s.mem
  pc : t.pc = s.pc + 4#32

theorem plainLoad_completesWith {rt : RegNum} {ea : Dword} {s t : State} (h : plainLoad rt ea s = .ok t) :
    CompletesWith [rt] s t := by
  obtain ⟨w, -, rfl⟩ := plainLoad_ok.mp h
  exact ⟨onlyChanges_setGpr s rt _, rfl, rfl⟩

theorem updateLoad_completesWith {rt ra : RegNum} {ea : Dword} {s t : State} (h : updateLoad rt ra ea s = .ok t) :
    CompletesWith [rt, ra] s t := by
  obtain ⟨-, w, -, rfl⟩ := updateLoad_ok.mp h
  exact ⟨(onlyChanges_setGpr s rt _).trans (onlyChanges_setGpr _ ra _), rfl, rfl⟩

/-! ### The update loads and the frame of every instruction -/

theorem exec_lwzu (rt ra : RegNum) (d : Disp) (s : State) :
    exec (.lwzu rt ra d) s = settle (updateLoad rt ra (s.gpr ra + d.signExtend 64) s) := rfl

theorem exec_lwzux (rt ra rb : RegNum) (s : State) :
    exec (.lwzux rt ra rb) s = settle (updateLoad rt ra (s.gpr ra + s.gpr rb) s) := rfl

/-- An instruction that completes changes the registers of its row in R10's table and the pc, and nothing else. -/
theorem exec_completesWith_regsWritten {i : Instr} {s t : State} (h : exec i s = .next t) :
    CompletesWith (regsWritten i) s t := by
  cases i with
  | lwz rt ra d =>
    rw [exec_lwz, settle_eq_next] at h
    exact plainLoad_completesWith h
  | lwzu rt ra d =>
    rw [exec_lwzu, settle_eq_next] at h
    exact updateLoad_completesWith h
  | lwzx rt ra rb =>
    rw [exec_lwzx, settle_eq_next] at h
    exact plainLoad_completesWith h
  | lwzux rt ra rb =>
    rw [exec_lwzux, settle_eq_next] at h
    exact updateLoad_completesWith h

/-- The frame as R60 states it, over registers and bytes. -/
theorem exec_frame {i : Instr} {s t : State} (h : exec i s = .next t) :
    OnlyChanges (regsWritten i) s t ∧ SameBytes s t := by
  obtain ⟨hregs, hmem, -⟩ := exec_completesWith_regsWritten h
  exact ⟨hregs, sameBytes_of_mem_eq hmem⟩

/-! ### The address arithmetic as numbers (R61) -/

theorem toNat_effectiveAddress (base offset : Dword) :
    (effectiveAddress base offset).toNat = (base.toNat + offset.toNat) % 2 ^ 64 :=
  BitVec.toNat_add base offset

theorem toNat_memAddress (ea : Dword) : (memAddress ea).toNat = ea.toNat % 2 ^ 32 := by
  rw [memAddress, BitVec.extractLsb'_toNat, Nat.shiftRight_zero]

@[simp] theorem toNat_zeroExtend64 (w : Word) : (zeroExtend64 w).toNat = w.toNat := by
  rw [zeroExtend64_eq_setWidth, BitVec.toNat_setWidth_of_le (by decide)]

end Sys2Proof.Machine
end

section
/-! PROOF of O12, O13 and O33. The first two read the frame of a completed instruction, whose destinations are those of
R10's table; the third reads the address arithmetic as numbers. -/

open Sys2Proof Sys2Proof.Machine

/-- Settles O12, by the frame of each instruction over the registers it writes. -/
theorem onlyDestinationsAndPcChange : Obligations.OnlyDestinationsAndPcChange := by
  refine ⟨fun rt ra d s t h => ?lwz, fun rt ra d s t h => ?lwzu, fun rt ra rb s t h => ?lwzx,
    fun rt ra rb s t h => ?lwzux⟩
  case lwz | lwzu | lwzx | lwzux => exact exec_frame h

/-- Settles O13: a step that completes is the meaning of the instruction it fetched, and every meaning advances the pc. -/
theorem completedInstructionsAdvancePcByFour : Obligations.CompletedInstructionsAdvancePcByFour := by
  refine ⟨fun i s t h => (exec_completesWith_regsWritten h).pc, fun s t h => ?_⟩
  obtain ⟨i, -, hexec⟩ := step_next h
  exact (exec_completesWith_regsWritten hexec).pc

/-- Settles O33: the address keeps the low 32 bits of a sum taken modulo 2^64, and 2^32 divides 2^64. -/
theorem addressArithmeticIsModular : Obligations.AddressArithmeticIsModular := by
  refine fun base offset w => ⟨toNat_effectiveAddress base offset, ?address, toNat_zeroExtend64 w⟩
  case address =>
    rw [toNat_memAddress, toNat_effectiveAddress, Nat.mod_mod_of_dvd _ (pow_dvd_pow 2 (by decide))]

end

section
/-! SUPPORT. The decoder against the forms (spec 30_encoding.md R41, R42, R46): every word is the form of its own fields,
and a row of the table asks for the opcode fields of its form and nothing else. -/

namespace Sys2Proof

/-! ### Words, bytes and forms -/

/-- Splitting a word into bytes and joining them gives it back: both follow the byte order of R22. -/
@[simp] theorem wordOfBytes_byteOfWord (w : Word) :
    wordOfBytes (byteOfWord w 0) (byteOfWord w 1) (byteOfWord w 2) (byteOfWord w 3) = w := by
  apply BitVec.eq_of_toNat_eq
  simp only [wordOfBytes, byteOfWord, toNat_append_eq_add, BitVec.extractLsb'_toNat, Nat.shiftRight_eq_div_pow]
  omega

theorem encodeD_fields (w : Word) : encodeD (ibmField 0 6 w) (fieldRT w) (fieldRA w) (fieldD w) = w := by
  apply BitVec.eq_of_toNat_eq
  simp only [toNat_encodeD, fieldRT, fieldRA, fieldD, toNat_ibmField]
  omega

theorem encodeX_fields (w : Word) :
    encodeX (ibmField 0 6 w) (fieldRT w) (fieldRA w) (fieldRB w) (ibmField 21 10 w) (ibmField 31 1 w) = w := by
  apply BitVec.eq_of_toNat_eq
  simp only [toNat_encodeX, fieldRT, fieldRA, fieldRB, toNat_ibmField]
  omega

/-! ### A mask selects the fields where it is all ones -/

theorem encodeD_and (opcd opcd' : BitVec 6) (rt ra rt' ra' : RegNum) (d d' : Disp) :
    encodeD opcd rt ra d &&& encodeD opcd' rt' ra' d' =
      encodeD (opcd &&& opcd') (rt &&& rt') (ra &&& ra') (d &&& d') := by
  change (opcd ++ rt ++ ra ++ d) &&& (opcd' ++ rt' ++ ra' ++ d') = _
  simp only [BitVec.and_append]
  rfl

theorem encodeX_and (opcd opcd' : BitVec 6) (rt ra rb rt' ra' rb' : RegNum) (xo xo' : BitVec 10) (rc rc' : BitVec 1) :
    encodeX opcd rt ra rb xo rc &&& encodeX opcd' rt' ra' rb' xo' rc' =
      encodeX (opcd &&& opcd') (rt &&& rt') (ra &&& ra') (rb &&& rb') (xo &&& xo') (rc &&& rc') := by
  change (opcd ++ rt ++ ra ++ rb ++ xo ++ rc) &&& (opcd' ++ rt' ++ ra' ++ rb' ++ xo' ++ rc') = _
  simp only [BitVec.and_append]
  rfl

/-- The form D mask of R46 keeps the primary opcode alone. -/
theorem and_maskD (w : Word) : w &&& 0xFC000000#32 = encodeD (ibmField 0 6 w) 0#5 0#5 0#16 := by
  have hmask : 0xFC000000#32 = encodeD (BitVec.allOnes 6) 0#5 0#5 0#16 := by decide
  conv_lhs => rw [← encodeD_fields w, hmask, encodeD_and]
  simp only [BitVec.and_allOnes, BitVec.and_zero]

/-- The form X mask of R46 keeps the primary opcode, the extended opcode and Rc. -/
theorem and_maskX (w : Word) :
    w &&& 0xFC0007FF#32 = encodeX (ibmField 0 6 w) 0#5 0#5 0#5 (ibmField 21 10 w) (ibmField 31 1 w) := by
  have hmask : 0xFC0007FF#32 = encodeX (BitVec.allOnes 6) 0#5 0#5 0#5 (BitVec.allOnes 10) (BitVec.allOnes 1) := by decide
  conv_lhs => rw [← encodeX_fields w, hmask, encodeX_and]
  simp only [BitVec.and_allOnes, BitVec.and_zero]

theorem and_maskD_eq_iff {w p : Word} {c : BitVec 6} (hp : p = encodeD c 0#5 0#5 0#16) :
    w &&& 0xFC000000#32 = p ↔ ibmField 0 6 w = c := by
  rw [and_maskD, hp]
  refine ⟨fun h => ?_, fun h => by rw [h]⟩
  simpa using congrArg (ibmField 0 6) h

theorem and_maskX_eq_iff {w p : Word} {c : BitVec 6} {xo : BitVec 10} {rc : BitVec 1}
    (hp : p = encodeX c 0#5 0#5 0#5 xo rc) :
    w &&& 0xFC0007FF#32 = p ↔ ibmField 0 6 w = c ∧ ibmField 21 10 w = xo ∧ ibmField 31 1 w = rc := by
  rw [and_maskX, hp]
  refine ⟨fun h => ⟨?opcd, ?xo, ?rc⟩, fun ⟨h, hxo, hrc⟩ => by rw [h, hxo, hrc]⟩
  case opcd => simpa using congrArg (ibmField 0 6) h
  case xo => simpa using congrArg (ibmField 21 10) h
  case rc => simpa using congrArg (ibmField 31 1) h

/-! ### The rows -/

theorem OpcodeRow.accepts_iff {r : OpcodeRow} {w : Word} : r.accepts w = true ↔ w &&& r.mask = r.pattern :=
  decide_eq_true_iff

theorem rowLwz_accepts {w : Word} : rowLwz.accepts w = true ↔ ibmField 0 6 w = 32#6 :=
  OpcodeRow.accepts_iff.trans (and_maskD_eq_iff (by decide))

theorem rowLwzu_accepts {w : Word} : rowLwzu.accepts w = true ↔ ibmField 0 6 w = 33#6 :=
  OpcodeRow.accepts_iff.trans (and_maskD_eq_iff (by decide))

theorem rowLwzx_accepts {w : Word} :
    rowLwzx.accepts w = true ↔ ibmField 0 6 w = 31#6 ∧ ibmField 21 10 w = 23#10 ∧ ibmField 31 1 w = 0#1 :=
  OpcodeRow.accepts_iff.trans (and_maskX_eq_iff (by decide))

theorem rowLwzux_accepts {w : Word} :
    rowLwzux.accepts w = true ↔ ibmField 0 6 w = 31#6 ∧ ibmField 21 10 w = 55#10 ∧ ibmField 31 1 w = 0#1 :=
  OpcodeRow.accepts_iff.trans (and_maskX_eq_iff (by decide))

/-- No word belongs to two rows: they differ in the primary opcode or, the X-form rows, in the extended one. -/
theorem opcodeRows_disjoint (w : Word) :
    opcodeRows.Pairwise fun r r' => ¬(r.accepts w = true ∧ r'.accepts w = true) := by
  simp only [opcodeRows, List.pairwise_cons, List.forall_mem_cons, rowLwz_accepts, rowLwzu_accepts, rowLwzx_accepts,
    rowLwzux_accepts]
  grind

/-! ### The decoder, row by row -/

section Rows

variable {w : Word}

theorem decode_of_lwz (h : rowLwz.accepts w = true) : decode w = .ok (.lwz (fieldRT w) (fieldRA w) (fieldD w)) := by
  simp [decode, h]

theorem decode_of_lwzu (h : rowLwzu.accepts w = true) :
    decode w = .ok (.lwzu (fieldRT w) (fieldRA w) (fieldD w)) := by
  have hop := rowLwzu_accepts.mp h
  simp [decode, h, rowLwz_accepts, hop]

theorem decode_of_lwzx (h : rowLwzx.accepts w = true) :
    decode w = .ok (.lwzx (fieldRT w) (fieldRA w) (fieldRB w)) := by
  obtain ⟨hop, -, -⟩ := rowLwzx_accepts.mp h
  simp [decode, h, rowLwz_accepts, rowLwzu_accepts, hop]

theorem decode_of_lwzux (h : rowLwzux.accepts w = true) :
    decode w = .ok (.lwzux (fieldRT w) (fieldRA w) (fieldRB w)) := by
  obtain ⟨hop, hxo, -⟩ := rowLwzux_accepts.mp h
  simp [decode, h, rowLwz_accepts, rowLwzu_accepts, rowLwzx_accepts, hop, hxo]

/-- Decoding the word of an encoded instruction gives the instruction back. -/
@[simp] theorem decode_encode (i : Instr) : decode (encode i) = .ok i := by
  cases i with
  | lwz rt ra d => simp [decode_of_lwz, rowLwz_accepts, encode]
  | lwzu rt ra d => simp [decode_of_lwzu, rowLwzu_accepts, encode]
  | lwzx rt ra rb => simp [decode_of_lwzx, rowLwzx_accepts, encode]
  | lwzux rt ra rb => simp [decode_of_lwzux, rowLwzux_accepts, encode]

/-- An accepted word is the encoding of what it decodes to: the row fixes every field that the instruction lacks. -/
theorem encode_of_decode {i : Instr} (h : decode w = .ok i) : encode i = w := by
  unfold decode at h
  split at h
  case isTrue hrow =>
    cases h
    rw [encode, ← rowLwz_accepts.mp hrow, encodeD_fields]
  split at h
  case isTrue hrow =>
    cases h
    rw [encode, ← rowLwzu_accepts.mp hrow, encodeD_fields]
  split at h
  case isTrue hrow =>
    obtain ⟨hop, hxo, hrc⟩ := rowLwzx_accepts.mp hrow
    cases h
    rw [encode, ← hop, ← hxo, ← hrc, encodeX_fields]
  split at h
  case isTrue hrow =>
    obtain ⟨hop, hxo, hrc⟩ := rowLwzux_accepts.mp hrow
    cases h
    rw [encode, ← hop, ← hxo, ← hrc, encodeX_fields]
  case isFalse => cases h

theorem decode_error_of_no_row (h : ∀ r ∈ opcodeRows, w &&& r.mask ≠ r.pattern) : decode w = .error .notInSpec := by
  have hrows : ∀ r ∈ opcodeRows, r.accepts w = false := fun r hr => decide_eq_false (h r hr)
  simp only [opcodeRows, List.forall_mem_cons] at hrows
  obtain ⟨hlwz, hlwzu, hlwzx, hlwzux, -⟩ := hrows
  simp [decode, hlwz, hlwzu, hlwzx, hlwzux]

/-- The only rejection of a whole word is that it matches no row (R48). -/
theorem decode_error {e : DecodeReject} (h : decode w = .error e) : e = .notInSpec := by
  unfold decode at h
  grind

end Rows

theorem decodeBytes_bytesOfWord (w : Word) (rest : List Byte) :
    decodeBytes (bytesOfWord w ++ rest) = (decode w).map (·, rest) := by
  simp only [bytesOfWord, List.cons_append, List.nil_append, decodeBytes, wordOfBytes_byteOfWord]
  cases decode w <;> rfl

end Sys2Proof
end

section
/-! PROOF of O1, O2, O3 and O6: the decoder inverts the encoder, accepts no other word, and is the table of R46. -/

open Sys2Proof Sys2Proof.Machine

/-- Settles O1: the fields of each form are read back, and the bytes of a word join to the word again. -/
theorem encodeThenDecodeIsIdentity : Obligations.EncodeThenDecodeIsIdentity :=
  fun i rest => ⟨decode_encode i, by rw [encodeBytes, decodeBytes_bytesOfWord, decode_encode]; rfl⟩

/-- Settles O2: the row that accepts a word fixes the opcode fields, and the instruction keeps all the others. -/
theorem decodedWordsReencode : Obligations.DecodedWordsReencode :=
  fun _ _ h => encode_of_decode h

/-- Settles O3, row by row; the rows are disjoint by their opcode fields. -/
theorem decodeFollowsMatchAndMask : Obligations.DecodeFollowsMatchAndMask := by
  refine fun w => ⟨fun h => ?lwz, fun h => ?lwzu, fun h => ?lwzx, fun h => ?lwzux, fun h₁ h₂ h₃ h₄ => ?noRow,
    opcodeRows_disjoint w⟩
  case lwz => exact decode_of_lwz (OpcodeRow.accepts_iff.mpr h)
  case lwzu => exact decode_of_lwzu (OpcodeRow.accepts_iff.mpr h)
  case lwzx => exact decode_of_lwzx (OpcodeRow.accepts_iff.mpr h)
  case lwzux => exact decode_of_lwzux (OpcodeRow.accepts_iff.mpr h)
  case noRow => exact decode_error_of_no_row (by simpa [opcodeRows] using ⟨h₁, h₂, h₃, h₄⟩)

/-- Settles O6: eight closed words, each run through the decoder. -/
theorem sampleWordsDecode : Obligations.SampleWordsDecode := by
  unfold Obligations.SampleWordsDecode
  decide

end

section
/-! SUPPORT. The read of a word, outcome by outcome (spec 20_memory.md R22 to R25): the one outcome each situation of the
four bytes has, and what each outcome says about them. -/

namespace Sys2Proof.Machine

/-! ### Four bytes as a number -/

theorem toNat_wordOfBytes (b0 b1 b2 b3 : Byte) : (wordOfBytes b0 b1 b2 b3).toNat = bigEndian b0 b1 b2 b3 := by
  simp only [wordOfBytes, bigEndian, toNat_append_eq_add]
  omega

/-! ### Where the address stands -/

theorem topWord_lt_iff {a : Addr} : Config.topWord < a ↔ 0xFFFFFFFC < a.toNat := Iff.rfl

theorem not_topWord_lt {a : Addr} (h : a.toNat ≤ 0xFFFFFFFC) : ¬Config.topWord < a :=
  Nat.not_lt.mpr h

section Reads

variable {m : Memory} {a : Addr} {b0 b1 b2 b3 : Byte} {j : Nat}

theorem Memory.FirstAbsent.toNat_absent (h : m.FirstAbsent a j) : (a + BitVec.ofNat 32 j).toNat = a.toNat + j := by
  obtain ⟨hle, hj, -⟩ := h
  exact toNat_add_offset hle hj

/-! ### The three situations exclude each other -/

/-- The byte of a held word at an offset below 4 is present. -/
theorem Memory.HoldsWord.isSome (h : m.HoldsWord a b0 b1 b2 b3) {k : Nat} (hk : k < 4) :
    (m.readByte (a.toNat + k)).isSome = true := by
  obtain ⟨-, h0, h1, h2, h3⟩ := h
  match k, hk with
  | 0, _ => simp [h0]
  | 1, _ => simp [h1]
  | 2, _ => simp [h2]
  | 3, _ => simp [h3]

theorem Memory.HoldsWord.not_firstAbsent (h : m.HoldsWord a b0 b1 b2 b3) : ¬m.FirstAbsent a j := by
  rintro ⟨-, hj, habs, -⟩
  simpa [habs] using h.isSome hj

theorem Memory.HoldsWord.unique {c0 c1 c2 c3 : Byte} (h : m.HoldsWord a b0 b1 b2 b3) (h' : m.HoldsWord a c0 c1 c2 c3) :
    b0 = c0 ∧ b1 = c1 ∧ b2 = c2 ∧ b3 = c3 := by
  obtain ⟨-, h0, h1, h2, h3⟩ := h
  simpa [h0, h1, h2, h3] using h'.2

theorem Memory.FirstAbsent.unique {j' : Nat} (h : m.FirstAbsent a j) (h' : m.FirstAbsent a j') : j = j' := by
  obtain ⟨-, -, habs, hbelow⟩ := h
  obtain ⟨-, -, habs', hbelow'⟩ := h'
  rcases Nat.lt_trichotomy j j' with hlt | heq | hgt
  · simpa [habs] using hbelow' j hlt
  · exact heq
  · simpa [habs'] using hbelow j' hgt

/-! ### The read in each situation -/

theorem Memory.readWord_of_holdsWord (h : m.HoldsWord a b0 b1 b2 b3) :
    m.readWord a = .ok (wordOfBytes b0 b1 b2 b3) := by
  rcases m.readWord_cases a with ⟨htop, -⟩ | ⟨c0, c1, c2, c3, hc, hread⟩ | ⟨j, hj, -⟩
  · exact absurd htop (not_topWord_lt h.1)
  · obtain ⟨rfl, rfl, rfl, rfl⟩ := h.unique hc
    exact hread
  · exact absurd hj h.not_firstAbsent

theorem Memory.readWord_of_firstAbsent (h : m.FirstAbsent a j) :
    m.readWord a = .error (.fault (.memFault (a + BitVec.ofNat 32 j))) := by
  rcases m.readWord_cases a with ⟨htop, -⟩ | ⟨c0, c1, c2, c3, hc, -⟩ | ⟨j', hj', hread⟩
  · exact absurd htop (not_topWord_lt h.1)
  · exact absurd h hc.not_firstAbsent
  · rwa [h.unique hj']

theorem Memory.readWord_above_top (h : 0xFFFFFFFC < a.toNat) : m.readWord a = .error (.refused .addressWrap) := by
  rcases m.readWord_cases a with ⟨-, hread⟩ | ⟨c0, c1, c2, c3, ⟨hle, -⟩, -⟩ | ⟨j, ⟨hle, -⟩, -⟩
  · exact hread
  · omega
  · omega

/-! ### What each outcome says -/

theorem Memory.readWord_eq_ok {w : Word} :
    m.readWord a = .ok w ↔ ∃ b0 b1 b2 b3, m.HoldsWord a b0 b1 b2 b3 ∧ w = wordOfBytes b0 b1 b2 b3 := by
  refine ⟨fun h => ?_, fun ⟨b0, b1, b2, b3, hb, hw⟩ => by rw [hw, readWord_of_holdsWord hb]⟩
  rcases m.readWord_cases a with ⟨-, hread⟩ | ⟨c0, c1, c2, c3, hc, hread⟩ | ⟨j, -, hread⟩ <;> rw [hread] at h
  · cases h
  · cases h
    exact ⟨c0, c1, c2, c3, hc, rfl⟩
  · cases h

theorem Memory.readWord_eq_fault {f : Fault} :
    m.readWord a = .error (.fault f) ↔ ∃ j, m.FirstAbsent a j ∧ f = .memFault (a + BitVec.ofNat 32 j) := by
  refine ⟨fun h => ?_, fun ⟨j, hj, hf⟩ => by rw [hf, readWord_of_firstAbsent hj]⟩
  rcases m.readWord_cases a with ⟨-, hread⟩ | ⟨c0, c1, c2, c3, -, hread⟩ | ⟨j, hj, hread⟩ <;> rw [hread] at h
  · cases h
  · cases h
  · cases h
    exact ⟨j, hj, rfl⟩

theorem Memory.readWord_eq_refused {r : Refusal} :
    m.readWord a = .error (.refused r) ↔ 0xFFFFFFFC < a.toNat ∧ r = .addressWrap := by
  refine ⟨fun h => ?_, fun ⟨htop, hr⟩ => by rw [hr, readWord_above_top htop]⟩
  rcases m.readWord_cases a with ⟨htop, hread⟩ | ⟨c0, c1, c2, c3, -, hread⟩ | ⟨j, -, hread⟩ <;> rw [hread] at h
  · cases h
    exact ⟨htop, rfl⟩
  · cases h
  · cases h

end Reads

/-! ### The read sees its four bytes and no others -/

/-- Two memories that agree on the four bytes from an address on, absent ones included, read alike there. -/
theorem Memory.readWord_congr {m m' : Memory} {a : Addr}
    (h : ∀ k < 4, m'.readByte (a.toNat + k) = m.readByte (a.toNat + k)) : m'.readWord a = m.readWord a := by
  rcases m.readWord_cases a with ⟨htop, hread⟩ | ⟨b0, b1, b2, b3, ⟨hle, h0, h1, h2, h3⟩, hread⟩ |
    ⟨j, ⟨hle, hj, habs, hbelow⟩, hread⟩ <;> rw [hread]
  · exact readWord_above_top htop
  · exact readWord_of_holdsWord ⟨hle, (h 0 (by decide)).trans h0, (h 1 (by decide)).trans h1,
      (h 2 (by decide)).trans h2, (h 3 (by decide)).trans h3⟩
  · refine readWord_of_firstAbsent ⟨hle, hj, (h j hj).trans habs, fun k hk => ?_⟩
    rw [h k (hk.trans hj)]
    exact hbelow k hk

theorem Memory.readByte_placeByte_ne (m : Memory) {a : Addr} (b : Byte) {x : Nat} (h : x ≠ a.toNat) :
    (m.placeByte a b).readByte x = m.readByte x := by
  rw [readByte_placeByte, if_neg h]

/-! ### The launcher's placing of a word -/

section PlaceWord

variable (m : Memory) {a : Addr} (w : Word)

/-- What each address reads as after a word is placed at an address that leaves room for it (R22, R33). -/
theorem Memory.readByte_placeWord (ha : a.toNat ≤ 0xFFFFFFFC) (x : Nat) :
    (m.placeWord a w).readByte x =
      if x = a.toNat + 3 then some (byteOfWord w 3) else if x = a.toNat + 2 then some (byteOfWord w 2)
      else if x = a.toNat + 1 then some (byteOfWord w 1) else if x = a.toNat then some (byteOfWord w 0)
      else m.readByte x := by
  have h1 : (a + 1#32).toNat = a.toNat + 1 := toNat_add_offset ha (k := 1) (by decide)
  have h2 : (a + 2#32).toNat = a.toNat + 2 := toNat_add_offset ha (k := 2) (by decide)
  have h3 : (a + 3#32).toNat = a.toNat + 3 := toNat_add_offset ha (k := 3) (by decide)
  simp only [placeWord, readByte_placeByte, h1, h2, h3]

theorem Memory.placeWord_holdsWord (ha : a.toNat ≤ 0xFFFFFFFC) :
    (m.placeWord a w).HoldsWord a (byteOfWord w 0) (byteOfWord w 1) (byteOfWord w 2) (byteOfWord w 3) := by
  simp [Memory.HoldsWord, readByte_placeWord m w ha, ha]

theorem Memory.readByte_placeWord_outside (ha : a.toNat ≤ 0xFFFFFFFC) {x : Nat} (hx : x < a.toNat ∨ a.toNat + 3 < x) :
    (m.placeWord a w).readByte x = m.readByte x := by
  rw [readByte_placeWord m w ha, if_neg (by omega), if_neg (by omega), if_neg (by omega), if_neg (by omega)]

end PlaceWord

end Sys2Proof.Machine
end

section
/-! PROOF of O32: the word of four held bytes, and a byte placed elsewhere is none of the four. -/

open Sys2Proof Sys2Proof.Machine

/-- Settles O32. -/
theorem wordReadIsBigEndian : Obligations.WordReadIsBigEndian := by
  refine fun m a b0 b1 b2 b3 h => ⟨?value, fun x b hx => ?elsewhere⟩
  case value =>
    rw [Memory.readWord_of_holdsWord h, ← toNat_wordOfBytes, BitVec.ofNat_toNat, BitVec.setWidth_eq]
  case elsewhere =>
    exact Memory.readWord_congr fun k hk => m.readByte_placeByte_ne b (by omega)

end

section
/-! SUPPORT. The meaning of every instruction, said once for all four (spec 40_load_word_and_zero.md R55 to R60): the form
check, the read at the effective address, and the commit of its results. The four completions, the dependence on the state
and the stops all follow from it. -/

namespace Sys2Proof.Machine

/-! ### The effective address -/

theorem memAddress_eq_setWidth (ea : Dword) : memAddress ea = ea.setWidth 32 :=
  BitVec.eq_of_toNat_eq (by rw [toNat_memAddress, BitVec.toNat_setWidth])

/-- The effective address depends on the registers that the instruction reads, by R10's table, and on nothing else. -/
theorem effectiveAddressOf_congr {i : Instr} {s s' : State} (h : ∀ r ∈ regsRead i, s'.gpr r = s.gpr r) :
    effectiveAddressOf i s' = effectiveAddressOf i s := by
  have hbase (ra : RegNum) (hra : ∀ r ∈ readsRA0 ra, s'.gpr r = s.gpr r) : s'.baseRA0 ra = s.baseRA0 ra := by
    by_cases hz : ra = 0#5
    · rw [hz, State.baseRA0_zero, State.baseRA0_zero]
    · rw [State.baseRA0_of_ne_zero hz, State.baseRA0_of_ne_zero hz]
      exact hra ra (by simp [readsRA0, hz])
  cases i with
  | lwz rt ra d => simp only [effectiveAddressOf, hbase ra h]
  | lwzu rt ra d => simp only [effectiveAddressOf, State.baseRA, h ra (by simp [regsRead])]
  | lwzx rt ra rb =>
    simp only [effectiveAddressOf, State.index, hbase ra fun r hr => h r (by simp [regsRead, hr]),
      h rb (by simp [regsRead])]
  | lwzux rt ra rb =>
    simp only [effectiveAddressOf, State.baseRA, State.index, h ra (by simp [regsRead]), h rb (by simp [regsRead])]

/-! ### The commit -/

/-- The state after an instruction whose read gave `w`: RT written, RA written in the update forms, the pc advanced
(R56 to R59). `exec_eq_next` ties it to the model. -/
def commit (i : Instr) (w : Word) (s : State) : State :=
  let loaded := s.setGpr i.rt (zeroExtend64 w)
  (if i.isUpdate then loaded.setGpr i.ra (effectiveAddressOf i s) else loaded).advance

/-- A valid update form has two destinations (R47). -/
theorem Instr.ra_ne_rt {i : Instr} (hwf : i.wellFormed = true) (hup : i.isUpdate = true) : i.ra ≠ i.rt := by
  cases i with
  | lwz | lwzx => cases hup
  | lwzu | lwzux => exact (updateFormOk_iff.mp hwf).2

theorem commit_rt {i : Instr} (hwf : i.wellFormed = true) (w : Word) (s : State) :
    (commit i w s).gpr i.rt = zeroExtend64 w := by
  unfold commit
  split
  next hup => simp [State.gpr_setGpr_ne _ _ (Instr.ra_ne_rt hwf hup).symm]
  next => simp

theorem commit_ra {i : Instr} (hup : i.isUpdate = true) (w : Word) (s : State) :
    (commit i w s).gpr i.ra = effectiveAddressOf i s := by
  simp [commit, hup]

/-- What an instruction writes is made of the loaded word and the effective address alone. -/
theorem commit_written_congr {i : Instr} (hwf : i.wellFormed = true) {s s' : State} (w : Word)
    (hea : effectiveAddressOf i s' = effectiveAddressOf i s) {r : RegNum} (hr : r ∈ regsWritten i) :
    (commit i w s').gpr r = (commit i w s).gpr r := by
  have hcases : r = i.rt ∨ i.isUpdate = true ∧ r = i.ra := by
    cases i with
    | lwz | lwzx => exact .inl (List.mem_singleton.mp hr)
    | lwzu | lwzux => simpa [regsWritten, Instr.rt, Instr.ra, Instr.isUpdate] using hr
  obtain rfl | ⟨hup, rfl⟩ := hcases
  · rw [commit_rt hwf, commit_rt hwf]
  · rw [commit_ra hup, commit_ra hup, hea]

/-- The commit carries the memory along and does not look at it. -/
theorem commit_with_mem (i : Instr) (w : Word) (s : State) (m : Memory) :
    commit i w { s with mem := m } = { commit i w s with mem := m } := by
  cases i <;> rfl

/-! ### The three outcomes of an instruction -/

section Outcomes

variable {i : Instr} {s : State}

theorem exec_eq_next {t : State} : exec i s = .next t ↔
    i.wellFormed = true ∧ ∃ w, s.mem.readWord (memAddress (effectiveAddressOf i s)) = .ok w ∧ t = commit i w s := by
  cases i with
  | lwz rt ra d => exact settle_eq_next.trans (plainLoad_ok.trans (and_iff_right rfl).symm)
  | lwzu rt ra d => exact settle_eq_next.trans updateLoad_ok
  | lwzx rt ra rb => exact settle_eq_next.trans (plainLoad_ok.trans (and_iff_right rfl).symm)
  | lwzux rt ra rb => exact settle_eq_next.trans updateLoad_ok

/-- An instruction faults just where its form is valid and its read faults. -/
theorem exec_eq_fault {f : Fault} : exec i s = .fault f ↔
    i.wellFormed = true ∧ s.mem.readWord (memAddress (effectiveAddressOf i s)) = .error (.fault f) := by
  have hupdate : ∀ {rt ra : RegNum} {ea : Dword}, settle (updateLoad rt ra ea s) = .fault f ↔
      updateFormOk rt ra = true ∧ s.mem.readWord (memAddress ea) = .error (.fault f) := by
    simp [updateLoad_error]
  cases i with
  | lwz rt ra d => exact settle_eq_fault.trans (plainLoad_error.trans (and_iff_right rfl).symm)
  | lwzu rt ra d => exact hupdate
  | lwzx rt ra rb => exact settle_eq_fault.trans (plainLoad_error.trans (and_iff_right rfl).symm)
  | lwzux rt ra rb => exact hupdate

/-- An instruction is refused for an invalid form, or, its form valid, for an address above 0xFFFF_FFFC. -/
theorem exec_eq_refused {r : Refusal} : exec i s = .refused r ↔
    i.wellFormed = false ∧ r = .invalidForm ∨
      i.wellFormed = true ∧ r = .addressWrap ∧ 0xFFFFFFFC < (memAddress (effectiveAddressOf i s)).toNat := by
  -- `wellFormed` of a non-update form is `true` by definition, so the statement's two cases stand here with that value.
  have hplain : ∀ {rt : RegNum} {ea : Dword}, settle (plainLoad rt ea s) = .refused r ↔
      true = false ∧ r = .invalidForm ∨ true = true ∧ r = .addressWrap ∧ 0xFFFFFFFC < (memAddress ea).toNat := by
    simp [plainLoad_error, Memory.readWord_eq_refused, and_comm]
  have hupdate : ∀ {rt ra : RegNum} {ea : Dword}, settle (updateLoad rt ra ea s) = .refused r ↔
      updateFormOk rt ra = false ∧ r = .invalidForm ∨
        updateFormOk rt ra = true ∧ r = .addressWrap ∧ 0xFFFFFFFC < (memAddress ea).toNat := by
    simp [updateLoad_error, Memory.readWord_eq_refused, and_comm]
  cases i with
  | lwz | lwzx => exact hplain
  | lwzu | lwzux => exact hupdate

end Outcomes

/-! ### Completion -/

section Completion

variable {i : Instr} {s : State}

theorem exec_of_readWord {w : Word} (hwf : i.wellFormed = true)
    (hw : s.mem.readWord (memAddress (effectiveAddressOf i s)) = .ok w) : exec i s = .next (commit i w s) :=
  exec_eq_next.mpr ⟨hwf, w, hw, rfl⟩

/-- A well-formed load whose four bytes exist completes: result, write-back and frame. -/
theorem exec_of_holdsWord {b0 b1 b2 b3 : Byte} (hwf : i.wellFormed = true)
    (hb : s.mem.HoldsWord ((effectiveAddressOf i s).setWidth 32) b0 b1 b2 b3) :
    ∃ t, exec i s = .next t ∧ (t.gpr i.rt).toNat = bigEndian b0 b1 b2 b3 ∧
      (i.isUpdate = true → t.gpr i.ra = effectiveAddressOf i s) ∧ CompletesWith (regsWritten i) s t := by
  rw [← memAddress_eq_setWidth] at hb
  have hexec := exec_of_readWord hwf (Memory.readWord_of_holdsWord hb)
  refine ⟨_, hexec, ?result, fun hup => commit_ra hup _ s, exec_completesWith_regsWritten hexec⟩
  case result => rw [commit_rt hwf, toNat_zeroExtend64, toNat_wordOfBytes]

/-- What a completed instruction has done: its form was valid, and RT holds the word read at the address. -/
theorem readWord_of_exec_next {t : State} (h : exec i s = .next t) : i.wellFormed = true ∧
    s.mem.readWord ((effectiveAddressOf i s).setWidth 32) = .ok ((t.gpr i.rt).setWidth 32) ∧
    (i.isUpdate = true → t.gpr i.ra = effectiveAddressOf i s) := by
  obtain ⟨hwf, w, hw, rfl⟩ := exec_eq_next.mp h
  have hlow : (zeroExtend64 w).setWidth 32 = w := by
    rw [zeroExtend64_eq_setWidth, BitVec.setWidth_setWidth_of_le _ (by decide), BitVec.setWidth_eq]
  exact ⟨hwf, by rw [commit_rt hwf, hlow, ← memAddress_eq_setWidth, hw], fun hup => commit_ra hup w s⟩

/-- Two states in which an instruction reads alike end alike: it completes in both, or stops in both in the same way. -/
theorem exec_congr_of_readWord_eq {s' : State}
    (hread : s'.mem.readWord (memAddress (effectiveAddressOf i s')) =
      s.mem.readWord (memAddress (effectiveAddressOf i s))) :
    (∀ t, exec i s = .next t →
      ∃ w, i.wellFormed = true ∧ t = commit i w s ∧ exec i s' = .next (commit i w s')) ∧
    (∀ f, exec i s = .fault f → exec i s' = .fault f) ∧ ∀ e, exec i s = .refused e → exec i s' = .refused e := by
  refine ⟨fun t h => ?next, fun f h => ?fault, fun e h => ?refused⟩
  case next =>
    obtain ⟨hwf, w, hw, rfl⟩ := exec_eq_next.mp h
    exact ⟨w, hwf, rfl, exec_of_readWord hwf (hread.trans hw)⟩
  case fault =>
    obtain ⟨hwf, hf⟩ := exec_eq_fault.mp h
    exact exec_eq_fault.mpr ⟨hwf, hread.trans hf⟩
  case refused =>
    refine exec_eq_refused.mpr ((exec_eq_refused.mp h).imp_right fun ⟨hwf, he, htop⟩ => ⟨hwf, he, ?_⟩)
    exact (Memory.readWord_eq_refused.mp (hread.trans (Memory.readWord_above_top htop))).1

end Completion

theorem updateFormOk_eq_false {rt ra : RegNum} : updateFormOk rt ra = false ↔ ra = 0#5 ∨ ra = rt := by
  rw [← Bool.not_eq_true, updateFormOk_iff, not_and_or, not_not, not_not]

theorem exec_invalidForm_iff {i : Instr} {s : State} :
    exec i s = .refused .invalidForm ↔ i.wellFormed = false := by
  simp [exec_eq_refused]

end Sys2Proof.Machine
end

section
/-! PROOF of O7 to O11, O14, O16 to O21 and O35: what the four loads do where they complete, what they depend on, where they
stop, each read off the three outcomes of an instruction. -/

open Sys2Proof Sys2Proof.Machine

/-! ### Completion -/

/-- Settles O7. -/
theorem lwzLoadsWordAndCompletes : Obligations.LwzLoadsWordAndCompletes := by
  intro rt ra d s b0 b1 b2 b3 hb
  obtain ⟨t, hexec, hrt, -, hregs, hmem, hpc⟩ := exec_of_holdsWord (i := .lwz rt ra d) rfl hb
  exact ⟨t, hexec, hrt, fun r hr => hregs r (by simpa [regsWritten] using hr), hpc, sameBytes_of_mem_eq hmem⟩

/-- Settles O8. -/
theorem lwzuLoadsUpdatesAndCompletes : Obligations.LwzuLoadsUpdatesAndCompletes := by
  intro rt ra d s b0 b1 b2 b3 hzero hne hb
  obtain ⟨t, hexec, hrt, hra, hregs, hmem, hpc⟩ :=
    exec_of_holdsWord (i := .lwzu rt ra d) (updateFormOk_iff.mpr ⟨hzero, hne⟩) hb
  exact ⟨t, hexec, hrt, hra rfl, fun r hrt hra => hregs r (by simp [regsWritten, hrt, hra]), hpc,
    sameBytes_of_mem_eq hmem⟩

/-- Settles O9. -/
theorem lwzxLoadsWordAndCompletes : Obligations.LwzxLoadsWordAndCompletes := by
  intro rt ra rb s b0 b1 b2 b3 hb
  obtain ⟨t, hexec, hrt, -, hregs, hmem, hpc⟩ := exec_of_holdsWord (i := .lwzx rt ra rb) rfl hb
  exact ⟨t, hexec, hrt, fun r hr => hregs r (by simpa [regsWritten] using hr), hpc, sameBytes_of_mem_eq hmem⟩

/-- Settles O10. -/
theorem lwzuxLoadsUpdatesAndCompletes : Obligations.LwzuxLoadsUpdatesAndCompletes := by
  intro rt ra rb s b0 b1 b2 b3 hzero hne hb
  obtain ⟨t, hexec, hrt, hra, hregs, hmem, hpc⟩ :=
    exec_of_holdsWord (i := .lwzux rt ra rb) (updateFormOk_iff.mpr ⟨hzero, hne⟩) hb
  exact ⟨t, hexec, hrt, hra rfl, fun r hrt hra => hregs r (by simp [regsWritten, hrt, hra]), hpc,
    sameBytes_of_mem_eq hmem⟩

/-- Settles O11: no hypothesis on the low bits of the address is needed anywhere. -/
theorem loadsCompleteAtEveryAlignment : Obligations.LoadsCompleteAtEveryAlignment := by
  refine fun i s hwf => ⟨fun b0 b1 b2 b3 hb => ?bytes, fun w hw => ?word⟩
  case bytes =>
    obtain ⟨t, hexec, hrt, -⟩ := exec_of_holdsWord hwf hb
    exact ⟨t, hexec, hrt⟩
  case word =>
    exact ⟨_, exec_of_readWord hwf hw, by rw [commit_rt hwf, zeroExtend64_eq_setWidth]⟩

/-- Settles O14: the frame keeps the base of a non-update form, and the commit replaces that of an update form. -/
theorem addressingModesKeepOrReplaceBase : Obligations.AddressingModesKeepOrReplaceBase := by
  refine ⟨fun rt ra d s t h => ?lwz, fun rt ra rb s t h => ?lwzx, fun rt ra d s t h => ?lwzu,
    fun rt ra rb s t h => ?lwzux⟩
  case lwz | lwzx =>
    obtain ⟨-, hread, -⟩ := readWord_of_exec_next h
    exact ⟨hread, fun hne => (exec_completesWith_regsWritten h).regs ra (by simpa [regsWritten] using hne)⟩
  case lwzu | lwzux =>
    obtain ⟨hwf, hread, hra⟩ := readWord_of_exec_next h
    obtain ⟨hzero, hne⟩ := updateFormOk_iff.mp hwf
    exact ⟨hzero, hne, hra rfl, (congrArg (fun ea => s.mem.readWord (ea.setWidth 32)) (hra rfl)).trans hread⟩

/-! ### What an instruction depends on -/

/-- Settles O16: the bank of registers, the table, the frame of R60, and the dependence on the registers read. -/
theorem registerEffectsTable : Obligations.RegisterEffectsTable := by
  refine ⟨fun s r v => ⟨s.gpr_setGpr_self r v, fun q hq => s.gpr_setGpr_ne v hq⟩,
    fun rt ra rb d => ⟨rfl, rfl, rfl, rfl, rfl, rfl, ?lwzxReads, rfl⟩,
    fun i s t h => (exec_completesWith_regsWritten h).regs, fun i s s' hmem hregs => ?dependence⟩
  case lwzxReads => by_cases hz : ra = 0#5 <;> simp [regsRead, readsRA0, hz]
  case dependence =>
    have hea := effectiveAddressOf_congr hregs
    obtain ⟨hnext, hstop⟩ := exec_congr_of_readWord_eq (i := i) (s := s) (s' := s') (by rw [hmem, hea])
    refine ⟨fun t h => ?_, hstop⟩
    obtain ⟨w, hwf, rfl, h'⟩ := hnext t h
    exact ⟨_, h', fun r hr => commit_written_congr hwf w hea hr⟩

/-- Settles O17: the effective address and the commit do not look at the memory, and the read sees four bytes of it. -/
theorem outcomeDependsOnFourBytesOnly : Obligations.OutcomeDependsOnFourBytesOnly := by
  intro i s m hbytes
  have hea : effectiveAddressOf i { s with mem := m } = effectiveAddressOf i s := effectiveAddressOf_congr fun _ _ => rfl
  obtain ⟨hnext, hstop⟩ := exec_congr_of_readWord_eq (i := i) (s := s) (s' := { s with mem := m })
    (by rw [hea]; exact Memory.readWord_congr hbytes)
  refine ⟨fun t h => ?_, hstop⟩
  obtain ⟨w, -, rfl, h'⟩ := hnext t h
  rw [h', commit_with_mem]

/-- Settles O18: only the low half of the effective address reaches the read. -/
theorem highHalfOfAddressIsIgnored : Obligations.HighHalfOfAddressIsIgnored := by
  intro i s s' hmem hlow
  obtain ⟨hnext, hstop⟩ := exec_congr_of_readWord_eq (i := i) (s := s) (s' := s')
    (by rw [memAddress_eq_setWidth, memAddress_eq_setWidth, hlow, hmem])
  refine ⟨fun t h => ?_, hstop⟩
  obtain ⟨w, hwf, rfl, h'⟩ := hnext t h
  exact ⟨_, h', by rw [commit_rt hwf, commit_rt hwf]⟩

/-! ### Where an instruction stops -/

/-- Settles O19. -/
theorem invalidFormsAreRefused : Obligations.InvalidFormsAreRefused := by
  refine fun s => ⟨fun rt ra d => ?lwzu, fun rt ra rb => ?lwzux, fun rt ra d h => ?lwz, fun rt ra rb h => ?lwzx⟩
  case lwzu | lwzux => exact exec_invalidForm_iff.trans updateFormOk_eq_false
  case lwz | lwzx => cases exec_invalidForm_iff.mp h

/-- Settles O20. -/
theorem accessPastTopIsRefused : Obligations.AccessPastTopIsRefused :=
  fun _ _ hwf htop => exec_eq_refused.mpr (.inr ⟨hwf, rfl, by rwa [toNat_memAddress]⟩)

/-- Settles O21. -/
theorem absentByteFaultsAtLowestAddress : Obligations.AbsentByteFaultsAtLowestAddress :=
  fun _ _ _ hwf habs => exec_eq_fault.mpr ⟨hwf, Memory.readWord_of_firstAbsent habs⟩

/-! ### The write-back -/

/-- Settles O35: an effective address is its two halves, and the 32-bit reading has zeros for the high one. -/
theorem writeBackReadingsAgreeWhenHighHalfZero : Obligations.WriteBackReadingsAgreeWhenHighHalfZero := by
  refine fun ea => ⟨?_, updateValue_config ea⟩
  have hvalue : updateValue true ea = updateValue false ea ↔ ea.toNat % 2 ^ 32 = ea.toNat := by
    rw [← toNat_memAddress, ← toNat_zeroExtend64, BitVec.toNat_inj]
    exact Iff.rfl
  have hhigh : ea.extractLsb 63 32 = 0#32 ↔ ea.toNat / 2 ^ 32 % 2 ^ 32 = 0 := by
    rw [← BitVec.toNat_inj, BitVec.extractLsb_toNat, Nat.shiftRight_eq_div_pow]
    exact Iff.rfl
  rw [hvalue, hhigh]
  omega

end

section
/-! SUPPORT. One step, test by test (spec 60_exceptions.md R68): the pc tests, the fetch, the decoder, and then the meaning
of the instruction, first failure first. -/

namespace Sys2Proof.Machine

/-! ### The pc tests -/

/-- The pc tests pass (R12). -/
structure PcOk (pc : Addr) : Prop where
  aligned : pc.toNat % 4 = 0
  notTop : pc ≠ 0xFFFFFFFC#32

theorem checkPc_ok {pc : Addr} : checkPc pc = .ok () ↔ PcOk pc := by
  rcases checkPc_cases pc with ⟨hmis, hcheck⟩ | ⟨-, htop, hcheck⟩ | ⟨haligned, hne, hcheck⟩
  · exact iff_of_false (by rw [hcheck]; simp) fun h => hmis h.aligned
  · exact iff_of_false (by rw [hcheck]; simp) fun h => h.notTop htop
  · exact iff_of_true hcheck ⟨haligned, hne⟩

/-- The pc tests refuse a misaligned pc first and the top word second, and do nothing else (R12, R68). -/
theorem checkPc_error {pc : Addr} {e : Stop} : checkPc pc = .error e ↔
    pc.toNat % 4 ≠ 0 ∧ e = .refused .misalignedPc ∨ pc = 0xFFFFFFFC#32 ∧ e = .refused .pcWrap := by
  rcases checkPc_cases pc with ⟨hmis, hcheck⟩ | ⟨haligned, rfl, hcheck⟩ | ⟨haligned, hne, hcheck⟩ <;> rw [hcheck]
  · have hne : pc ≠ 0xFFFFFFFC#32 := by rintro rfl; exact hmis rfl
    simp [hmis, hne, eq_comm]
  · simp [Config.topWord, eq_comm]
  · have hne' : pc ≠ 0xFFFFFFFC#32 := hne
    simp [haligned, hne']

/-- A pc that passes its tests has room for its word and for its successor. -/
theorem PcOk.toNat_lt {pc : Addr} (h : PcOk pc) : pc.toNat < 0xFFFFFFFC := by
  have haligned := h.aligned
  have hne : pc.toNat ≠ 0xFFFFFFFC := fun heq => h.notTop (BitVec.eq_of_toNat_eq heq)
  omega

theorem PcOk.toNat_next {pc : Addr} (h : PcOk pc) : (pc + 4#32).toNat = pc.toNat + 4 := by
  have hlt := h.toNat_lt
  rw [BitVec.toNat_add, BitVec.toNat_ofNat]
  omega

/-! ### The three outcomes of a step -/

section Outcomes

variable {s : State}

theorem step_of_fetch_ok {i : Instr} (h : fetchInstr s = .ok i) : step s = exec i s := by
  rw [step, h]

theorem step_of_fetch_error {e : Stop} (h : fetchInstr s = .error e) : step s = settle (.error e) := by
  rw [step, h]

theorem settle_error_inj {e e' : Stop} : settle (.error e') = settle (.error e) ↔ e' = e := by
  rcases e with f | r
  · exact settle_eq_fault.trans (by simp)
  · exact settle_eq_refused.trans (by simp)

/-- A step stops where the fetch does, or where the meaning of the fetched instruction does. -/
theorem step_eq_stop {e : Stop} : step s = settle (.error e) ↔
    fetchInstr s = .error e ∨ ∃ i, fetchInstr s = .ok i ∧ exec i s = settle (.error e) := by
  cases hf : fetchInstr s with
  | error e' => simp [step_of_fetch_error hf, settle_error_inj]
  | ok i => simp [step_of_fetch_ok hf]

theorem fetchInstr_eq_ok {i : Instr} : fetchInstr s = .ok i ↔
    PcOk s.pc ∧ ∃ b0 b1 b2 b3, s.mem.HoldsWord s.pc b0 b1 b2 b3 ∧ decode (wordOfBytes b0 b1 b2 b3) = .ok i := by
  rw [fetchInstr_ok, checkPc_ok]
  refine and_congr_right fun _ => ⟨fun ⟨w, hw, hi⟩ => ?_, fun ⟨b0, b1, b2, b3, hb, hi⟩ => ?_⟩
  · obtain ⟨b0, b1, b2, b3, hb, rfl⟩ := Memory.readWord_eq_ok.mp hw
    exact ⟨b0, b1, b2, b3, hb, hi⟩
  · exact ⟨_, Memory.readWord_of_holdsWord hb, hi⟩

/-- A fetch faults just where its pc tests pass and a byte of the word at the pc is absent. -/
theorem fetchInstr_eq_fault {f : Fault} : fetchInstr s = .error (.fault f) ↔
    PcOk s.pc ∧ ∃ j, s.mem.FirstAbsent s.pc j ∧ f = .memFault (s.pc + BitVec.ofNat 32 j) := by
  simp [fetchInstr_error, checkPc_error, checkPc_ok, Memory.readWord_eq_fault]

/-- A fetch is refused by the pc tests or, the word read, by the decoder; never for its address. -/
theorem fetchInstr_eq_refused {r : Refusal} : fetchInstr s = .error (.refused r) ↔
    s.pc.toNat % 4 ≠ 0 ∧ r = .misalignedPc ∨ s.pc = 0xFFFFFFFC#32 ∧ r = .pcWrap ∨
      PcOk s.pc ∧ r = .notInSpec ∧ ∃ b0 b1 b2 b3, s.mem.HoldsWord s.pc b0 b1 b2 b3 ∧
        decode (wordOfBytes b0 b1 b2 b3) = .error .notInSpec := by
  rw [fetchInstr_error, checkPc_error, checkPc_ok]
  constructor
  · rintro ((⟨hmis, hr⟩ | ⟨htop, hr⟩) | ⟨hpc, hread | ⟨w, e, hw, he, hr⟩⟩)
    · cases hr
      exact .inl ⟨hmis, rfl⟩
    · cases hr
      exact .inr (.inl ⟨htop, rfl⟩)
    · have := (Memory.readWord_eq_refused.mp hread).1
      have := hpc.toNat_lt
      omega
    · cases hr
      obtain rfl := decode_error he
      obtain ⟨b0, b1, b2, b3, hb, rfl⟩ := Memory.readWord_eq_ok.mp hw
      exact .inr (.inr ⟨hpc, rfl, b0, b1, b2, b3, hb, he⟩)
  · rintro (⟨hmis, rfl⟩ | ⟨htop, rfl⟩ | ⟨hpc, rfl, b0, b1, b2, b3, hb, he⟩)
    · exact .inl (.inl ⟨hmis, rfl⟩)
    · exact .inl (.inr ⟨htop, rfl⟩)
    · exact .inr ⟨hpc, .inr ⟨_, _, Memory.readWord_of_holdsWord hb, he, rfl⟩⟩

end Outcomes

/-! ### The tests of R68, each where the ones before it pass -/

section Tests

variable {s : State} {b0 b1 b2 b3 : Byte} {i : Instr}

theorem step_misalignedPc (h : s.pc.toNat % 4 ≠ 0) : step s = .refused .misalignedPc :=
  step_of_fetch_error (fetchInstr_eq_refused.mpr (.inl ⟨h, rfl⟩))

theorem step_pcWrap (h : s.pc = 0xFFFFFFFC#32) : step s = .refused .pcWrap :=
  step_of_fetch_error (fetchInstr_eq_refused.mpr (.inr (.inl ⟨h, rfl⟩)))

theorem step_fetchFault (hpc : PcOk s.pc) {j : Nat} (h : s.mem.FirstAbsent s.pc j) :
    step s = .fault (.memFault (s.pc + BitVec.ofNat 32 j)) :=
  step_of_fetch_error (fetchInstr_eq_fault.mpr ⟨hpc, j, h, rfl⟩)

theorem step_notInSpec (hpc : PcOk s.pc) (hb : s.mem.HoldsWord s.pc b0 b1 b2 b3) {e : DecodeReject}
    (h : decode (b0 ++ b1 ++ b2 ++ b3) = .error e) : step s = .refused .notInSpec := by
  obtain rfl := decode_error h
  exact step_of_fetch_error (fetchInstr_eq_refused.mpr (.inr (.inr ⟨hpc, rfl, b0, b1, b2, b3, hb, h⟩)))

theorem step_eq_exec (hpc : PcOk s.pc) (hb : s.mem.HoldsWord s.pc b0 b1 b2 b3)
    (h : decode (b0 ++ b1 ++ b2 ++ b3) = .ok i) : step s = exec i s :=
  step_of_fetch_ok (fetchInstr_eq_ok.mpr ⟨hpc, b0, b1, b2, b3, hb, h⟩)

end Tests

/-! ### A step that completes -/

/-- What every completed step had and leaves (R12, R62, decision D11): a pc that passed its tests, the same memory, and
the pc at the next word, not wrapped. -/
structure StepFrame (s t : State) : Prop where
  pcOk : PcOk s.pc
  mem : t.mem = s.mem
  pc : t.pc = s.pc + 4#32
  toNat_pc : t.pc.toNat = s.pc.toNat + 4

theorem step_next_frame {s t : State} (h : step s = .next t) : StepFrame s t := by
  obtain ⟨i, hfetch, hexec⟩ := step_next h
  obtain ⟨hpc, -⟩ := fetchInstr_eq_ok.mp hfetch
  obtain ⟨-, hmem, hnext⟩ := exec_completesWith_regsWritten hexec
  exact ⟨hpc, hmem, hnext, by rw [hnext, hpc.toNat_next]⟩

/-! ### The launcher's word at the pc -/

theorem tableWord_toNat (w : Word) : tableWord 32 w.toNat = w := by
  rw [tableWord, Nat.mod_eq_of_lt w.isLt, BitVec.ofNat_toNat, BitVec.setWidth_eq]

theorem decodeTableWord_encode (i : Instr) : decodeTableWord 32 (encode i).toNat = some i := by
  have h : decodeBytes (bytesOfWord (encode i)) = .ok (i, []) := by
    simpa [encodeBytes] using (encodeThenDecodeIsIdentity i []).2
  rw [decodeTableWord, tableWord_toNat, h]

theorem withFetchWord_toNat (s : State) (w : Word) : s.withFetchWord 32 w.toNat = s.placeInstr w := by
  rw [State.withFetchWord, tableWord_toNat]

/-- The next step from a state with an instruction placed at its pc runs that instruction. -/
theorem step_placeInstr {s : State} (hpc : PcOk s.pc) (i : Instr) :
    step (s.placeInstr (encode i)) = exec i (s.placeInstr (encode i)) := by
  have hb := s.mem.placeWord_holdsWord (encode i) (Nat.le_of_lt hpc.toNat_lt)
  refine step_eq_exec (s := s.placeInstr (encode i)) hpc hb ?_
  exact (congrArg decode (wordOfBytes_byteOfWord (encode i))).trans (decode_encode i)

end Sys2Proof.Machine
end

section
/-! PROOF of O22 to O26 and O28: what a step stops for, what it runs, and where its pc may stand. -/

open Sys2Proof Sys2Proof.Machine

/-- Settles O22: a fault is the fetch's or that of the data access, and each names the first absent byte of its four. -/
theorem faultsNameAbsentBytes : Obligations.FaultsNameAbsentBytes := by
  intro s f h
  rcases step_eq_stop (e := .fault f) |>.mp h with hfetch | ⟨i, hfetch, hexec⟩
  · obtain ⟨-, j, hj, rfl⟩ := fetchInstr_eq_fault.mp hfetch
    have hb := hj.toNat_absent
    obtain ⟨-, hlt, habs, -⟩ := hj
    exact ⟨_, j, rfl, hlt, by rwa [hb], .inl hb⟩
  · obtain ⟨-, b0, b1, b2, b3, hword, hi⟩ := fetchInstr_eq_ok.mp hfetch
    obtain ⟨hwf, hread⟩ := exec_eq_fault.mp hexec
    obtain ⟨j, hj, rfl⟩ := Memory.readWord_eq_fault.mp hread
    have hb := hj.toNat_absent
    obtain ⟨-, hlt, habs, -⟩ := hj
    exact ⟨_, j, rfl, hlt, by rwa [hb], .inr ⟨b0, b1, b2, b3, i, hword, hi, hwf, by rw [hb, toNat_memAddress]⟩⟩

/-- Settles O23: the refusals of the fetch, and the two of an instruction. -/
theorem refusalsAreTheClosedList : Obligations.RefusalsAreTheClosedList := by
  intro s r h
  rcases step_eq_stop (e := .refused r) |>.mp h with hfetch | ⟨i, hfetch, hexec⟩
  · rcases fetchInstr_eq_refused.mp hfetch with ⟨hmis, hr⟩ | ⟨htop, hr⟩ | ⟨-, hr, b0, b1, b2, b3, hword, he⟩
    · exact .inl ⟨hr, hmis⟩
    · exact .inr (.inl ⟨hr, htop⟩)
    · exact .inr (.inr ⟨b0, b1, b2, b3, hword, .inl ⟨hr, he⟩⟩)
  · obtain ⟨-, b0, b1, b2, b3, hword, hi⟩ := fetchInstr_eq_ok.mp hfetch
    refine .inr (.inr ⟨b0, b1, b2, b3, hword, .inr ⟨i, hi, ?_⟩⟩)
    rcases exec_eq_refused.mp hexec with ⟨hwf, hr⟩ | ⟨hwf, hr, htop⟩
    · exact .inl ⟨hr, hwf⟩
    · exact .inr ⟨hr, hwf, by rwa [← toNat_memAddress]⟩

/-- Settles O24. -/
theorem wordsOutsideTableAreRefused : Obligations.WordsOutsideTableAreRefused :=
  fun _ _ _ _ _ haligned htop hb h₁ h₂ h₃ h₄ =>
    step_notInSpec ⟨haligned, htop⟩ hb (decode_error_of_no_row (by simpa [opcodeRows] using ⟨h₁, h₂, h₃, h₄⟩))

/-- Settles O25. -/
theorem stepRunsDecodedInstruction : Obligations.StepRunsDecodedInstruction :=
  fun _ _ _ _ _ _ haligned htop hb hi => step_eq_exec ⟨haligned, htop⟩ hb hi

/-- Settles O26: the four bytes placed at the pc are those of the encoded word, which the fetch reads and decodes. -/
theorem placedInstructionRunsNext : Obligations.PlacedInstructionRunsNext := by
  intro s i haligned htop
  have hpc : PcOk s.pc := ⟨haligned, htop⟩
  rw [withFetchWord_toNat]
  exact ⟨decodeTableWord_encode i, step_placeInstr hpc i, rfl, fun _ _ => rfl,
    fun _ ha => s.mem.readByte_placeWord_outside (encode i) (Nat.le_of_lt hpc.toNat_lt) ha⟩

/-- Settles O28. -/
theorem pcIsAlignedAndNeverWraps : Obligations.PcIsAlignedAndNeverWraps := by
  refine fun s => ⟨step_misalignedPc, step_pcWrap, fun t h => ?completes⟩
  case completes =>
    have hframe := step_next_frame h
    exact ⟨hframe.pcOk.aligned, hframe.toNat_pc⟩

end

section
/-! SUPPORT. Runs (spec 70_reset_and_hazards.md R77): the equations of `run`, the induction that carries a step's invariant
to a run, and how a run to an end `n` words ahead goes. -/

namespace Sys2Proof.Machine

/-! ### The equations of a run -/

section Equations

variable {endPc : Addr} {s : State}

theorem run_at_end (h : s.pc = endPc) (k : Nat) : run endPc k s = .final s := by
  cases k <;> simp [run, h]

theorem run_zero (h : s.pc ≠ endPc) : run endPc 0 s = .unfinished s := by
  simp [run, h]

theorem run_succ_of_next (h : s.pc ≠ endPc) {t : State} (hstep : step s = .next t) (k : Nat) :
    run endPc (k + 1) s = run endPc k t := by
  simp [run, h, hstep]

theorem run_succ_of_stop (h : s.pc ≠ endPc) {e : Stop} (hstep : step s = settle (.error e)) (k : Nat) :
    run endPc (k + 1) s = .stopped e s := by
  cases e <;> simp [run, h, hstep, settle]

theorem run_succ_of_fault (h : s.pc ≠ endPc) {f : Fault} (hstep : step s = .fault f) (k : Nat) :
    run endPc (k + 1) s = .stopped (.fault f) s :=
  run_succ_of_stop (e := .fault f) h hstep k

theorem run_succ_of_refused (h : s.pc ≠ endPc) {r : Refusal} (hstep : step s = .refused r) (k : Nat) :
    run endPc (k + 1) s = .stopped (.refused r) s :=
  run_succ_of_stop (e := .refused r) h hstep k

/-- A step completes or stops. -/
theorem step_cases (s : State) : (∃ t, step s = .next t) ∨ ∃ e, step s = settle (.error e) := by
  cases h : step s with
  | next t => exact .inl ⟨t, rfl⟩
  | fault f => exact .inr ⟨.fault f, rfl⟩
  | refused r => exact .inr ⟨.refused r, rfl⟩

end Equations

/-! ### Invariants of steps are invariants of runs -/

/-- What every completed step keeps holds of the state any run stands in. -/
theorem run_state_of_step_keeps {P : State → Prop} (hkeep : ∀ s t, P s → step s = .next t → P t) (endPc : Addr)
    (k : Nat) {s : State} (hs : P s) : P (run endPc k s).state := by
  induction k generalizing s with
  | zero =>
    by_cases hend : s.pc = endPc
    · rwa [run_at_end hend]
    · rwa [run_zero hend]
  | succ k ih =>
    by_cases hend : s.pc = endPc
    · rwa [run_at_end hend]
    rcases step_cases s with ⟨t, hstep⟩ | ⟨e, hstep⟩
    · rw [run_succ_of_next hend hstep]
      exact ih (hkeep s t hs hstep)
    · rwa [run_succ_of_stop hend hstep]

theorem step_keeps_inv {s t : State} (hs : s.Inv) (h : step s = .next t) : t.Inv := by
  obtain ⟨hwf, haligned⟩ := hs
  obtain ⟨-, hmem, -, hnext⟩ := step_next_frame h
  exact ⟨by rwa [hmem], by omega⟩

theorem run_state_mem (endPc : Addr) (k : Nat) (s : State) : (run endPc k s).state.mem = s.mem :=
  run_state_of_step_keeps (P := fun u => u.mem = s.mem) (fun _ _ hu h => (step_next_frame h).mem.trans hu) endPc k rfl

/-! ### A run to an end ahead of the pc -/

section Ahead

variable {endPc : Addr} {n : Nat} {s : State}

theorem pc_eq_of_zero_ahead (h : endPc.toNat = s.pc.toNat + 4 * 0) : s.pc = endPc :=
  BitVec.eq_of_toNat_eq h.symm

theorem pc_ne_of_succ_ahead (h : endPc.toNat = s.pc.toNat + 4 * (n + 1)) : s.pc ≠ endPc := by
  rintro rfl
  omega

/-- A completed step brings the end one word nearer. -/
theorem ahead_of_next (h : endPc.toNat = s.pc.toNat + 4 * (n + 1)) {t : State} (hstep : step s = .next t) :
    endPc.toNat = t.pc.toNat + 4 * n := by
  have hnext := (step_next_frame hstep).toNat_pc
  omega

theorem run_not_final_before_end (h : endPc.toNat = s.pc.toNat + 4 * n) {k : Nat} (hk : k < n) (t : State) :
    run endPc k s ≠ .final t := by
  induction k generalizing s n with
  | zero =>
    obtain ⟨n, rfl⟩ := Nat.exists_eq_succ_of_ne_zero (Nat.ne_zero_of_lt hk)
    rw [run_zero (pc_ne_of_succ_ahead h)]
    simp
  | succ k ih =>
    obtain ⟨n, rfl⟩ := Nat.exists_eq_succ_of_ne_zero (Nat.ne_zero_of_lt hk)
    have hend := pc_ne_of_succ_ahead h
    rcases step_cases s with ⟨u, hstep⟩ | ⟨e, hstep⟩
    · rw [run_succ_of_next hend hstep]
      exact ih (ahead_of_next h hstep) (Nat.lt_of_succ_lt_succ hk)
    · simp [run_succ_of_stop hend hstep]

/-- After as many steps as there are words to the end, a run has reached it or stopped. -/
theorem run_ends (h : endPc.toNat = s.pc.toNat + 4 * n) :
    (∃ t, run endPc n s = .final t ∧ t.pc = endPc) ∨ ∃ why t, run endPc n s = .stopped why t := by
  induction n generalizing s with
  | zero =>
    have hend := pc_eq_of_zero_ahead h
    exact .inl ⟨s, run_at_end hend 0, hend⟩
  | succ n ih =>
    have hend := pc_ne_of_succ_ahead h
    rcases step_cases s with ⟨t, hstep⟩ | ⟨e, hstep⟩
    · rw [run_succ_of_next hend hstep]
      exact ih (ahead_of_next h hstep)
    · exact .inr ⟨e, s, run_succ_of_stop hend hstep n⟩

end Ahead

/-! ### A run that stops -/

/-- A stopped run stands where `n` completed steps have led, the step from there is the stop, and no longer run differs. -/
theorem run_stopped {endPc : Addr} {k : Nat} {s t : State} {why : Stop} (h : run endPc k s = .stopped why t) :
    ∃ n < k, run endPc n s = .unfinished t ∧ t.pc = s.pc + BitVec.ofNat 32 (4 * n) ∧
      step t = settle (.error why) ∧ ∀ j, n < j → run endPc j s = .stopped why t := by
  have hend : s.pc ≠ endPc := fun hend => by simp [run_at_end hend] at h
  induction k generalizing s with
  | zero => simp [run_zero hend] at h
  | succ k ih =>
    rcases step_cases s with ⟨u, hstep⟩ | ⟨e, hstep⟩
    · rw [run_succ_of_next hend hstep] at h
      have hend' : u.pc ≠ endPc := fun hend => by simp [run_at_end hend] at h
      obtain ⟨n, hn, hrun, hpc, hstop, hlonger⟩ := ih h hend'
      refine ⟨n + 1, Nat.succ_lt_succ hn, by rw [run_succ_of_next hend hstep, hrun], ?pc, hstop, fun j hj => ?longer⟩
      case pc =>
        rw [hpc, (step_next_frame hstep).pc, BitVec.add_assoc, Nat.mul_add, Nat.add_comm, BitVec.ofNat_add]
      case longer =>
        obtain ⟨j, rfl⟩ := Nat.exists_eq_succ_of_ne_zero (Nat.ne_zero_of_lt hj)
        rw [run_succ_of_next hend hstep, hlonger j (Nat.lt_of_succ_lt_succ hj)]
    · rw [run_succ_of_stop hend hstep] at h
      cases h
      refine ⟨0, Nat.succ_pos k, run_zero hend, (BitVec.add_zero _).symm, hstep, fun j hj => ?_⟩
      obtain ⟨j, rfl⟩ := Nat.exists_eq_succ_of_ne_zero (Nat.ne_zero_of_lt hj)
      exact run_succ_of_stop hend hstep j

/-! ### Launches -/

/-- What a launch must meet, as facts (R75, R77): the end is `words` words after the entry, and each byte between them
is present. -/
theorem Launch.wf_facts {l : Launch} (h : l.wf = true) : l.endPc.toNat = l.entryPc.toNat + 4 * l.words ∧
    ∀ a, l.entryPc.toNat ≤ a → a < l.endPc.toNat → (l.mem.readByte a).isSome = true := by
  simp only [Launch.wf, Bool.and_eq_true, decide_eq_true_eq] at h
  obtain ⟨⟨⟨⟨hentry, hend⟩, hle⟩, -⟩, htext⟩ := h
  have hwords : l.endPc.toNat = l.entryPc.toNat + 4 * l.words := by
    rw [Launch.words]
    omega
  refine ⟨hwords, fun a hlo hhi => ?_⟩
  rw [Launch.textPresent, List.all_eq_true] at htext
  have ha := htext (a - l.entryPc.toNat) (List.mem_range.mpr (by omega))
  rwa [Nat.add_sub_cancel' hlo] at ha

end Sys2Proof.Machine
end

section
/-! PROOF of O27, O29 to O31 and O36 to O40: the tests of a step within a run, the invariant and the memory of every run,
and how a run ends. -/

open Sys2Proof Sys2Proof.Machine

/-- Settles O29: the invariant is kept by one step, and so by the induction of runs. -/
theorem stepAndRunKeepInvariant : Obligations.StepAndRunKeepInvariant :=
  ⟨fun _ _ => step_keeps_inv, fun endPc k _ => run_state_of_step_keeps (fun _ _ => step_keeps_inv) endPc k⟩

/-- Settles O27: the run end, and then the step's tests in their order, each of which the run reports. -/
theorem stepTestsInOrder : Obligations.StepTestsInOrder := by
  refine fun endPc k s => ⟨fun h => run_at_end h (k + 1), fun hend => ⟨fun h => ?misalignedPc, fun h => ?pcWrap,
    fun haligned htop => ⟨fun j h => ?fetchFault, fun b0 b1 b2 b3 hb => ⟨fun e h => ?notInSpec, fun i hi =>
      ⟨fun hwf => ?invalidForm, fun hwf => ⟨fun h => ?addressWrap, fun j h => ?dataFault,
        fun c0 c1 c2 c3 hc => ?commits⟩⟩⟩⟩⟩⟩
  case misalignedPc => exact run_succ_of_refused hend (step_misalignedPc h) k
  case pcWrap => exact run_succ_of_refused hend (step_pcWrap h) k
  case fetchFault => exact run_succ_of_fault hend (step_fetchFault ⟨haligned, htop⟩ h) k
  case notInSpec => exact run_succ_of_refused hend (step_notInSpec ⟨haligned, htop⟩ hb h) k
  all_goals have hstep := step_eq_exec ⟨haligned, htop⟩ hb hi
  case invalidForm => exact run_succ_of_refused hend (hstep.trans (exec_invalidForm_iff.mpr hwf)) k
  case addressWrap => exact run_succ_of_refused hend (hstep.trans (accessPastTopIsRefused i s hwf h)) k
  case dataFault => exact run_succ_of_fault hend (hstep.trans (absentByteFaultsAtLowestAddress i s j hwf h)) k
  case commits =>
    have hnext := hstep.trans (exec_of_readWord hwf (Memory.readWord_of_holdsWord hc))
    exact ⟨_, hnext, run_succ_of_next hend hnext k⟩

/-- Settles O36. -/
theorem memoryIsConstantOverRuns : Obligations.MemoryIsConstantOverRuns :=
  ⟨fun _ _ h => (step_next_frame h).mem, run_state_mem⟩

/-- Settles O37: each completed step brings END_PC one word nearer. -/
theorem runReachesEndAfterExactlyItsWordsOrStops : Obligations.RunReachesEndAfterExactlyItsWordsOrStops := by
  refine ⟨fun endPc n s h => ⟨fun k hk t => run_not_final_before_end h hk t, run_ends h⟩, fun l hwf => ?launch⟩
  case launch =>
    obtain ⟨hwords, -⟩ := Launch.wf_facts hwf
    exact run_ends (s := l.start) hwords

/-- Settles O38. -/
theorem stopsArePreciseAndTerminal : Obligations.StopsArePreciseAndTerminal :=
  fun _ _ _ _ _ h => run_stopped h

/-- Settles O39: the step that stops names an absent byte, and every byte of the text is present in the same memory. -/
theorem admittedLaunchFaultsOnlyOutsideItsText : Obligations.AdmittedLaunchFaultsOnlyOutsideItsText := by
  intro l b t hwf h
  have hmem : t.mem = l.mem :=
    (congrArg (fun r : RunResult => r.state.mem) h).symm.trans (run_state_mem l.endPc l.words l.start)
  obtain ⟨n, -, -, -, hstop, -⟩ := run_stopped h
  obtain ⟨b', k, hb, -, habs, -⟩ := faultsNameAbsentBytes t _ hstop
  cases hb
  refine ⟨?_, hmem⟩
  by_contra hinside
  obtain ⟨-, htext⟩ := Launch.wf_facts hwf
  have hpresent := htext b.toNat (by omega) (by omega)
  simp [← hmem, habs] at hpresent

/-- Settles O30. -/
theorem resetMeetsInvariant : Obligations.ResetMeetsInvariant :=
  ⟨State.reset_mem_wf, rfl⟩

/-- Settles O31: with no byte in memory, the first byte of the fetch at 0 is absent. -/
theorem resetLeavesTheModelsValues : Obligations.ResetLeavesTheModelsValues := by
  have habs : State.reset.mem.FirstAbsent State.reset.pc 0 :=
    ⟨by decide, by decide, rfl, fun k hk => absurd hk k.not_lt_zero⟩
  exact ⟨fun r => Vector.getElem_replicate r.isLt, rfl, fun _ => rfl, step_fetchFault ⟨rfl, by decide⟩ habs⟩

/-- Settles O40. -/
theorem launchStartsFromItsArguments : Obligations.LaunchStartsFromItsArguments :=
  fun _ => ⟨fun _ => rfl, rfl, rfl⟩

end

section
/-! SUPPORT. The assembler against the lines it accepts (spec 30_encoding.md R47, R50, R51), operand by operand. -/

namespace Sys2Proof.Machine

/-- The spellings of an RA0 base that assemble are those that disassembling writes (R50). -/
theorem asmRA0_ok {base : AsmBase} {ra : RegNum} : asmRA0 base = .ok ra ↔ base = asmBaseRA0 ra := by
  cases base with
  | zero => grind [asmRA0, asmBaseRA0]
  | reg n => grind [asmRA0, asmBaseRA0]

/-- A base of an update form assembles where it is a register and the form it gives is valid (R47). -/
theorem asmRA_ok {rt : RegNum} {base : AsmBase} {ra : RegNum} :
    asmRA rt base = .ok ra ↔ updateFormOk rt ra = true ∧ base = .reg ra := by
  cases base with
  | zero => simp [asmRA]
  | reg n => grind [asmRA]

/-- A displacement in range goes to the 16 bits whose two's-complement value it is (R43, R51). -/
theorem asmDisp_ok {z : Int} {d : Disp} : asmDisp z = .ok d ↔ z = d.toInt := by
  unfold asmDisp
  constructor
  · intro h
    split at h
    next hrange =>
      cases h
      rw [BitVec.toInt_ofInt, Int.bmod_eq_of_le] <;> omega
    next => cases h
  · rintro rfl
    have hlo : -32768 ≤ d.toInt := BitVec.le_toInt d
    have hhi : d.toInt < 32768 := BitVec.toInt_lt (x := d)
    rw [if_pos ⟨hlo, by omega⟩, BitVec.ofInt_toInt]

/-- A sequence of two computations gives a value just where both do. -/
theorem except_bind_eq_ok {ε α β : Type} {x : Except ε α} {f : α → Except ε β} {b : β} :
    x >>= f = .ok b ↔ ∃ a, x = .ok a ∧ f a = .ok b := by
  cases x <;> simp [bind, Except.bind]

/-- A line that assembles gives a well-formed instruction, of which it is the line. -/
theorem disassemble_of_assemble {l : AsmLine} {i : Instr} (h : assemble l = .ok i) :
    i.wellFormed = true ∧ disassemble i = l := by
  cases l with
  | displacement op rd z base =>
    cases op with
    | lwz =>
      simp only [assemble, except_bind_eq_ok] at h
      obtain ⟨ra, hra, d, hd, hi⟩ := h
      cases hi
      exact ⟨rfl, by rw [disassemble, asmRA0_ok.mp hra, asmDisp_ok.mp hd]⟩
    | lwzu =>
      simp only [assemble, except_bind_eq_ok] at h
      obtain ⟨ra, hra, d, hd, hi⟩ := h
      cases hi
      obtain ⟨hok, hbase⟩ := asmRA_ok.mp hra
      exact ⟨hok, by rw [disassemble, hbase, asmDisp_ok.mp hd]⟩
    | lwzx | lwzux => cases h
  | indexed op rd base rb =>
    cases op with
    | lwzx =>
      simp only [assemble, except_bind_eq_ok] at h
      obtain ⟨ra, hra, hi⟩ := h
      cases hi
      exact ⟨rfl, by rw [disassemble, asmRA0_ok.mp hra]⟩
    | lwzux =>
      simp only [assemble, except_bind_eq_ok] at h
      obtain ⟨ra, hra, hi⟩ := h
      cases hi
      obtain ⟨hok, hbase⟩ := asmRA_ok.mp hra
      exact ⟨hok, by rw [disassemble, hbase]⟩
    | lwz | lwzu => cases h

theorem assemble_disassemble {i : Instr} (hwf : i.wellFormed = true) : assemble (disassemble i) = .ok i := by
  cases i with
  | lwz rt ra d =>
    simp only [disassemble, assemble, except_bind_eq_ok]
    exact ⟨ra, asmRA0_ok.mpr rfl, d, asmDisp_ok.mpr rfl, rfl⟩
  | lwzu rt ra d =>
    simp only [disassemble, assemble, except_bind_eq_ok]
    exact ⟨ra, asmRA_ok.mpr ⟨hwf, rfl⟩, d, asmDisp_ok.mpr rfl, rfl⟩
  | lwzx rt ra rb =>
    simp only [disassemble, assemble, except_bind_eq_ok]
    exact ⟨ra, asmRA0_ok.mpr rfl, rfl⟩
  | lwzux rt ra rb =>
    simp only [disassemble, assemble, except_bind_eq_ok]
    exact ⟨ra, asmRA_ok.mpr ⟨hwf, rfl⟩, rfl⟩

end Sys2Proof.Machine
end

section
/-! PROOF of O41: assembling and disassembling are inverse on well-formed instructions. -/

open Sys2Proof Sys2Proof.Machine

/-- Settles O41, from the operands: each is assembled to the field it is the spelling of, and to no other. -/
theorem assembleInvertsDisassemble : Obligations.AssembleInvertsDisassemble :=
  ⟨fun _ hwf => assemble_disassemble hwf, fun _ _ h => disassemble_of_assemble h⟩

end
